-- ==== Sys2Proof/Word.lean ====
section
/-!
DEFINITION. The word types of the FFT core: the 32-bit word, its bytes, the 16-bit component, the complex sample C16
and the wide complex value CZ (spec/00_scope.md R13, spec/20_memory.md R52). Types only: what can be computed with them
stands in the files under Machine/.
-/

namespace Sys2Proof

/-- One byte, as a platform bridge shows it (20_memory.md R53). -/
abbrev Byte := BitVec 8

/-- One component of a sample in 16-bit two's complement (the set `int16` of 00_scope.md R13). Its value is `toInt`. -/
abbrev Half := BitVec 16

/-- One 32-bit word: a register, a packed sample, a command word. As a `u32` its value is `toNat`. -/
abbrev Word := BitVec 32

/-- A complex sample `C16` (00_scope.md R13): two independent 16-bit signed lanes (20_memory.md R51, R56). -/
structure Sample where
  re : Half
  im : Half
deriving DecidableEq, Repr

/-- The sample with both components zero. -/
def Sample.zero : Sample := ⟨0, 0⟩

/-- A sample from two integers, each in 16-bit two's complement: how programs write `(re, im)` (30_encoding.md R88). -/
def Sample.ofInts (re im : Int) : Sample := ⟨BitVec.ofInt 16 re, BitVec.ofInt 16 im⟩

/-- A wide complex value `CZ` (00_scope.md R13): both components are unbounded integers. -/
structure Wide where
  re : Int
  im : Int
deriving DecidableEq, Repr

end Sys2Proof
end

