-- ==== Sys2Proof/Config.lean ====
section
/-!
DEFINITION. The build-time parameters of the block (spec/00_scope.md section 3, spec/92_eei_decisions.md section 4):
every one of them is OPEN in the spec, so it is a field here and every statement holds for all its values. The record
is carried in `State.cfg` and no step changes it (log 1). The checks on it are in Machine/Params.lean.
-/

namespace Sys2Proof

/-- The transform direction (00_scope.md R7): "a build-time choice, not a runtime parameter". -/
inductive Dir where
  | forward
  | inverse
deriving DecidableEq, Repr

/-- The configuration record (00_scope.md R6 to R9; the three bases are 20_memory.md R60). -/
structure Config where
  /-- `K`, also `LOG4N`: the number of layers (R6). -/
  K : Nat
  /-- `DIR` (R7). -/
  dir : Dir
  /-- `TW`: the twiddle table; `TWLEN` is its length (R8). -/
  tw : List Sample
  /-- `SCHED`: the twiddle start offset of each layer (R8). -/
  sched : List Word
  /-- `REG_BASE`, a byte address (R60). -/
  regBase : Nat
  /-- `SRC_BASE`, a byte address (R60). -/
  srcBase : Nat
  /-- `DST_BASE`, a byte address (R60). -/
  dstBase : Nat
deriving DecidableEq, Repr

/-- The transform size `N = 4^K` (R6). -/
def Config.N (c : Config) : Nat := 4 ^ c.K

/-- The number of index bits `LOG2N = 2*K` (R6). -/
def Config.log2N (c : Config) : Nat := 2 * c.K

/-- `TWLEN`, the number of entries of `TW` (R8). -/
def Config.twlen (c : Config) : Nat := c.tw.length

/-- The build that `State.reset` stands for (DESIGN CHOICE, log 1): the configuration of the source's own scenario
(95_test_vectors.md section 1.2 and program P1), with bases this model names. No statement rests on it: the statements
about reset speak of `State.resetOf c` for every `c`. -/
def Config.scenario : Config where
  K := 1
  dir := .forward
  tw := [Sample.ofInts 32767 0]
  sched := [0]
  regBase := 0x0000
  srcBase := 0x1000
  dstBase := 0x2000

end Sys2Proof
end

