-- ==== Sys2Proof/Machine/Arith.lean ====
section
/-!
DEFINITION. The block's arithmetic (spec/41_butterfly.md R120 to R125, R129 to R131; spec/00_scope.md R15). Every value
between the prescale and the write-back is an exact integer; information is lost in exactly three places, `q4`, `rq15`
and `wrap16` (R120). `/` on integers with a positive divisor is the floor of R15.
-/

namespace Sys2Proof.Machine

/-- Prescale of one component (R121): `floor((x + 2) / 4)`, the sum exact. -/
def q4 (x : Half) : Int := (x.toInt + 2) / 4

/-- Prescale of a sample (R121). -/
def q4c (x : Sample) : Wide := ⟨q4 x.re, q4 x.im⟩

/-- Product rounding (R122): `floor((p + 16384) / 32768)`. -/
def rq15 (p : Int) : Int := (p + 16384) / 32768

/-- Complex product of a wide value and a twiddle (R123): four exact products, each rounded on its own. -/
def cmul (x : Wide) (w : Sample) : Wide :=
  ⟨rq15 (x.re * w.re.toInt) - rq15 (x.im * w.im.toInt),
   rq15 (x.re * w.im.toInt) + rq15 (x.im * w.re.toInt)⟩

/-- `wrap16` (00_scope.md R15): the 16-bit two's complement value congruent to `z` modulo 2^16. -/
def wrap16 (z : Int) : Half := BitVec.ofInt 16 z

/-- Write-back wrap of a wide value (R125), each component on its own: silent, no saturation. -/
def wrap16c (y : Wide) : Sample := ⟨wrap16 y.re, wrap16 y.im⟩

/-- Exact sum of two wide values. -/
def wadd (u v : Wide) : Wide := ⟨u.re + v.re, u.im + v.im⟩

/-- Exact difference of two wide values. -/
def wsub (u v : Wide) : Wide := ⟨u.re - v.re, u.im - v.im⟩

/-- `rotm`: multiplication by `-i` (R131), an exact swap and sign change. -/
def rotm (u : Wide) : Wide := ⟨u.im, -u.re⟩

/-- `rotp`: multiplication by `+i` (R131), an exact swap and sign change. -/
def rotp (u : Wide) : Wide := ⟨-u.im, u.re⟩

end Sys2Proof.Machine
end

