-- ==== Sys2Proof/Machine/Params.lean ====
section
/-!
DEFINITION. The checks on a build's parameters: `CfgOK` (spec/00_scope.md R9), the range of `TWLEN` (R8, decision D11)
and the address map's two conditions (spec/20_memory.md R55, R60). Each is a Bool so that it can be evaluated.
-/

namespace Sys2Proof

/-- The first clause of `CfgOK` (R9): `1 <= K <= 15`. -/
def Config.sizeOk (c : Config) : Bool := decide (1 ≤ c.K) && decide (c.K ≤ 15)

/-- The second clause of `CfgOK` (R9): `SCHED` has `K` entries. -/
def Config.schedOk (c : Config) : Bool := decide (c.sched.length = c.K)

/-- The third clause of `CfgOK` (R9): for every layer `l` in `0 .. K-1`, `SCHED[l] + 3*(4^l - 1) < TWLEN`. -/
def Config.reachOk (c : Config) : Bool :=
  (List.range c.K).all fun l => match c.sched[l]? with
    | some t => decide (t.toNat + 3 * (4 ^ l - 1) < c.twlen)
    | none => false

/-- `CfgOK` (R9): the condition under which `TRANSFORM` has a meaning. -/
def Config.cfgOk (c : Config) : Bool := c.sizeOk && c.schedOk && c.reachOk

/-- `1 <= TWLEN <= 2^32 - 1` (00_scope.md section 3, decision D11). -/
def Config.twlenOk (c : Config) : Bool := decide (1 ≤ c.twlen) && decide (c.twlen ≤ 2 ^ 32 - 1)

/-- The three bases are multiples of 4 (20_memory.md R55). -/
def Config.basesAligned (c : Config) : Bool :=
  decide (c.regBase % 4 = 0) && decide (c.srcBase % 4 = 0) && decide (c.dstBase % 4 = 0)

/-- Two windows, each a base and a length in bytes, share no address. -/
def windowsApart (a la b lb : Nat) : Bool := decide (a + la ≤ b) || decide (b + lb ≤ a)

/-- "the three windows do not overlap" (20_memory.md R55): 24 bytes of registers, `4*N` bytes for each memory. -/
def Config.windowsDisjoint (c : Config) : Bool :=
  windowsApart c.regBase 0x18 c.srcBase (4 * c.N) && windowsApart c.regBase 0x18 c.dstBase (4 * c.N)
    && windowsApart c.srcBase (4 * c.N) c.dstBase (4 * c.N)

/-- The address map is as R55 and R60 ask. -/
def Config.mapOk (c : Config) : Bool := c.basesAligned && c.windowsDisjoint

end Sys2Proof
end

