-- ==== Sys2Proof/Machine/HostOp.lean ====
section
/-!
DEFINITION. What the host can do to the block (spec/30_encoding.md R88, spec/20_memory.md R55, spec/70_reset_and_hazards.md
R200), as data: the entries of `State.pending`. A program is a list of them (log 2).
-/

namespace Sys2Proof.Machine

/-- One action of the host, or one turn it leaves to the block. -/
inductive HostOp where
  /-- `WR addr, word` (30_encoding.md R88): a host write of `size` bytes at byte address `addr`. Only `size = 4` is
  inside the contract (20_memory.md R55); `data` is what a 4-byte write carries. -/
  | write (addr size : Nat) (data : Word)
  /-- `RD addr` (R88): a host read of `size` bytes at byte address `addr`. -/
  | read (addr size : Nat)
  /-- The access of `GETSRC i` and `GETDST i` (R88): `RD addr`, "and the program's result lists `unpack` of the word
  read". -/
  | get (addr : Nat)
  /-- `WAIT` (R88): reads `STATUS` until the word read has `BUSY` = 0. -/
  | wait
  /-- `RESET` (R88): asserts and releases the block's reset (70_reset_and_hazards.md R200). -/
  | reset
  /-- The host does nothing while the block completes the phase it is in. Not a line of the spec's program notation: it
  is how a program says where the host's next action falls (log 3). -/
  | tick
deriving DecidableEq, Repr

/-- How a command write is run. Both are the spec's (00_scope.md R11): "A model may therefore take each command as one
atomic step", and "The finer steps given in `42_orchestrator.md` (one phase per step)" refine it (log 3). -/
inductive Grain where
  /-- The whole command is one step. -/
  | command
  /-- Acceptance is one step and each phase of the sequencer is one step, so that `BUSY` = 1 can be observed. -/
  | phase
deriving DecidableEq, Repr

end Sys2Proof.Machine
end

