-- ==== Sys2Proof/Machine/State.lean ====
section
/-!
DEFINITION. The state of the block (spec/10_state.md), the reasons a step can stop (spec/60_exceptions.md R180, R184),
and the state after reset (spec/10_state.md R40 to R42, spec/70_reset_and_hazards.md R200).
-/

namespace Sys2Proof.Machine

/-- `SEQ.phase` (10_state.md R30). -/
inductive Phase where
  | idle
  | reorder
  | layer
deriving DecidableEq, Repr

/-- The sequencer state `SEQ` (10_state.md R30), the block's counterpart of a program counter. `i` and `m` are unbounded
naturals, as 92_eei_decisions.md D11 allows. The fields other than `phase` "have meaning only while `phase != IDLE`". -/
structure Seq where
  phase : Phase
  /-- 1 when the running command is `TRANSFORM`. -/
  chain : Bool
  /-- The layer index. -/
  i : Nat
  /-- The quarter stride of the layer in progress. -/
  m : Nat
  /-- The twiddle start offset of the layer in progress. -/
  tws : Word
deriving DecidableEq, Repr

/-- The register `STATUS` (10_state.md R23, R25): its two flags. Bits [31:2] have no storage and read 0. -/
structure Status where
  busy : Bool
  done : Bool
deriving DecidableEq, Repr

/-- A sample memory: the written entries, as (index, sample) pairs with strictly rising indices. An index that is not
listed is unwritten: it has no value (10_state.md R41; log 7). -/
abbrev Mem := List (Nat × Sample)

/-- The block raises no exception and cannot hang (60_exceptions.md R180; 93_implementation_defined.md: "No behaviour of
this block is treated as `stuck` or `fault`"), so no fault has a name. Safe: nothing can stop with one (log 17). -/
inductive Fault where
deriving DecidableEq, Repr

/-- Why a step has no next state: the closed list of 60_exceptions.md R184. All of them are safe: nothing can be proved
of what real hardware does after one. `notModelled` is the host's own and no arm of `exec` uses it. -/
inductive Refusal where
  /-- An instruction with no meaning in the model. Raised by no one here. Safe. -/
  | notModelled (mnemonic : String)
  /-- A host write while `BUSY` = 1: of `CMD` or `ARG0..2` (R184), of `STATUS` or `CFG` (R25, R62, R183; log 8). Raised by
  a register write and by every command's acceptance. Safe. -/
  | busyWrite
  /-- A host access to `SRC` or `DST`, or a host read of `CMD` or `ARG0..2`, while `BUSY` = 1 (20_memory.md R62). Raised by
  the host's reads and writes. Safe. -/
  | busyAccess
  /-- A write to `CMD` of a word with bits [31:2] not all 0 (30_encoding.md R85). Raised by a command write. Safe. -/
  | reservedCommand
  /-- `RUNLAYER` with an illegal stride or group count (41_butterfly.md R141 (b), (c)). Raised by its acceptance. Safe. -/
  | badOperand
  /-- An index at or beyond the size of its space: `RUNLAYER`'s last twiddle (R141 (d)), an entry of `SCHED`
  (10_state.md R34). Raised by `RUNLAYER`'s acceptance and by the phases. Safe. -/
  | badIndex
  /-- `TRANSFORM` when `CfgOK` does not hold (00_scope.md R9; 42_orchestrator.md R167). Raised by its acceptance. Safe. -/
  | badConfig
  /-- A read of an entry of `SRC` or `DST` not written since reset (10_state.md R41). Raised by acceptance, by the phases
  and by host reads. Safe. -/
  | unwrittenSample
  /-- A host access that is not 32 bits wide or not 4-byte aligned (20_memory.md R55). Raised by host accesses. Safe. -/
  | badAccess
  /-- A host access outside the three windows, reserved register offsets included (10_state.md R29; 20_memory.md R55).
  Raised by host accesses. Safe. -/
  | badAddress
deriving DecidableEq, Repr

/-- The state of one instance of the block (10_state.md section 1), the build it is an instance of (log 1), and the
model's own record of the host (`pending`, `rdata`, `result`, `grain`; log 2, log 3, log 6). `CMD` has no storage (R24)
and `CFG` is computed from the build (R28). -/
structure State where
  /-- The build: constant, no step changes it (10_state.md R42). -/
  cfg : Config
  /-- `STATUS` (R25). -/
  status : Status
  /-- `ARG0`, also `TWSTART` (R21). -/
  arg0 : Word
  /-- `ARG1`, also `STRIDE` (R21). -/
  arg1 : Word
  /-- `ARG2`, also `GROUPS` (R21). -/
  arg2 : Word
  /-- `SEQ` (R30). -/
  seq : Seq
  /-- `SRC[0..N-1]` (R34, R41). -/
  src : Mem
  /-- `DST[0..N-1]` (R34, R41). -/
  dst : Mem
  /-- How a command write is run (the model's own; no host access changes it). -/
  grain : Grain
  /-- What the host is about to do, oldest first (the model's own). -/
  pending : List HostOp
  /-- The words the host's reads have returned, newest first (the model's own). -/
  rdata : List Word
  /-- The program's result (30_encoding.md R88): the samples its `GETSRC` and `GETDST` lines have read, newest first. -/
  result : List Sample
deriving DecidableEq, Repr

/-- `SEQ` after reset: phase `IDLE` (R40). The spec leaves the other fields unspecified and "never read before a command
writes them"; they are zero here (DESIGN CHOICE, log 4). -/
def Seq.reset : Seq := ⟨.idle, false, 0, 0, 0⟩

/-- The state right after reset of an instance of the build `c` (10_state.md R40, R41, R42; 70_reset_and_hazards.md R200),
with no host action pending. -/
def State.resetOf (c : Config) : State where
  cfg := c
  status := ⟨false, false⟩
  arg0 := 0
  arg1 := 0
  arg2 := 0
  seq := Seq.reset
  src := []
  dst := []
  grain := .command
  pending := []
  rdata := []
  result := []

/-- The machine right after reset, as one build of it (log 1). -/
def State.reset : State := State.resetOf Config.scenario

end Sys2Proof.Machine
end

