-- ==== Sys2Proof/Machine/Operands.lean ====
section
/-!
DEFINITION. The operand forms of the block: `RUNLAYER`'s three operands, taken from the operand registers as full 32-bit
unsigned integers (spec/30_encoding.md R82), the conditions under which they are legal (spec/41_butterfly.md R141), and
the entries of `SCHED` that `TRANSFORM` uses instead (spec/42_orchestrator.md R163). No command has another operand.
-/

namespace Sys2Proof.Machine

/-- `tws = x[ARG0]` (R82). -/
def State.opTws (s : State) : Nat := s.arg0.toNat

/-- `stride = x[ARG1]` (R82). -/
def State.opStride (s : State) : Nat := s.arg1.toNat

/-- `groups = x[ARG2]` (R82). -/
def State.opGroups (s : State) : Nat := s.arg2.toNat

/-- R141 (b): the stride is at least 4 and a multiple of 4. -/
def strideOk (stride : Nat) : Bool := decide (4 ≤ stride) && decide (stride % 4 = 0)

/-- R141 (c): the groups tile the buffer. -/
def groupsOk (c : Config) (stride groups : Nat) : Bool := decide (groups * stride = c.N)

/-- R141 (d), for the quarter stride `m`: the last twiddle index of the layer is inside the table, the sum formed in
mathematical integers. -/
def reachOk (c : Config) (tws m : Nat) : Bool := decide (tws + 3 * (m - 1) < c.twlen)

end Sys2Proof.Machine
end

