-- ==== Sys2Proof/Syntax.lean ====
section
/-!
DEFINITION. The instruction set: one constructor for each row of spec/opcode_table.json. A command word carries no
register field, no immediate and no mode bit (spec/30_encoding.md R80, R82), so no constructor has an operand;
RUNLAYER's three operands are in registers (R82).
-/

namespace Sys2Proof

/-- A command of the block, the word a host writes to `CMD` (30_encoding.md R80, R81). -/
inductive Instr where
  /-- `WARMUP`, the source's warm-up hook (42_orchestrator.md R170). -/
  | warmup
  /-- `REORDER` (40_reorder.md R106). -/
  | reorder
  /-- `RUNLAYER` (41_butterfly.md R140). -/
  | runlayer
  /-- `TRANSFORM` (42_orchestrator.md R161). -/
  | transform
deriving DecidableEq, Repr

end Sys2Proof
end

