-- ==== Sys2Proof/Decode.lean ====
section
/-!
DEFINITION. The decoder, total on 32-bit words and on byte lists, and after it the encoder, both written from
spec/30_encoding.md R80 to R86. `opcodeRows` is the match/mask form of the same decoding (R83, spec/opcode_table.json).
-/

namespace Sys2Proof

/-- Why the decoder refuses: by name. -/
inductive DecodeError where
  /-- Bits [31:2] of the word are not all 0 (30_encoding.md R85). -/
  | reservedCommand
  /-- Fewer bytes than one command word (R80: there is one length, 32 bits). -/
  | truncated
deriving DecidableEq, Repr

/-- The field `OP`, bits [1:0] of a command word (R80). -/
def Word.op (w : Word) : BitVec 2 := w.extractLsb' 0 2

/-- The field `RSV`, bits [31:2] of a command word (R80). -/
def Word.rsv (w : Word) : BitVec 30 := w.extractLsb' 2 30

/-- The command that a value of `OP` selects; all four values are assigned (R81). -/
def decodeOp (op : BitVec 2) : Instr :=
  if op = 0 then .warmup else if op = 1 then .reorder else if op = 2 then .runlayer else .transform

/-- Decoding of a command word (R83): reserved unless `RSV` is 0 (R85), otherwise selected by `OP`. -/
def decode (w : Word) : Except DecodeError Instr :=
  if w.rsv = 0 then .ok (decodeOp w.op) else .error .reservedCommand

/-- A 32-bit word from its four bytes, the byte at the lowest address first (little-endian, 20_memory.md R53). -/
def wordOfBytes (b0 b1 b2 b3 : Byte) : Word := b3 ++ b2 ++ b1 ++ b0

/-- The four bytes of a word, the byte at the lowest address first (20_memory.md R53). -/
def bytesOfWord (w : Word) : List Byte :=
  [w.extractLsb' 0 8, w.extractLsb' 8 8, w.extractLsb' 16 8, w.extractLsb' 24 8]

/-- Decoding of the first command word of a byte list; the rest of the list comes back with it. -/
def decodeBytes : List Byte → Except DecodeError (Instr × List Byte)
  | b0 :: b1 :: b2 :: b3 :: rest =>
    match decode (wordOfBytes b0 b1 b2 b3) with
    | .ok i => .ok (i, rest)
    | .error e => .error e
  | _ => .error .truncated

/-- The value of `OP` that stands for a command (R81). -/
def Instr.op : Instr → BitVec 2
  | .warmup => 0
  | .reorder => 1
  | .runlayer => 2
  | .transform => 3

/-- The command word of a command: `OP` in bits [1:0], `RSV` = 0 (R80, R81). -/
def encode (i : Instr) : Word := (0 : BitVec 30) ++ i.op

/-- The bytes of a command word as a little-endian platform stores it (20_memory.md R53; log 16). -/
def encodeBytes (i : Instr) : List Byte := bytesOfWord (encode i)

/-- One row of the opcode table: a word `w` is the row's command when `w` masked is the row's match. -/
structure OpcodeRow where
  mask : Word
  pattern : Word
  instr : Instr
deriving DecidableEq, Repr

/-- The four rows of spec/opcode_table.json: "every command has mask 0xFFFFFFFF and match equal to its word" (R83). -/
def opcodeRows : List OpcodeRow :=
  [⟨0xFFFFFFFF, 0x00000000, .warmup⟩, ⟨0xFFFFFFFF, 0x00000001, .reorder⟩,
   ⟨0xFFFFFFFF, 0x00000002, .runlayer⟩, ⟨0xFFFFFFFF, 0x00000003, .transform⟩]

/-- A word belongs to a row. -/
def OpcodeRow.hits (r : OpcodeRow) (w : Word) : Bool := decide (w &&& r.mask = r.pattern)

/-- The host's numbering of a table row's word: bit 0 is the least significant bit of the one 32-bit word. A word of
more than 32 bits is no instruction of this block (R80, R86). -/
def decodeTableWord (nbits w : Nat) : Option Instr :=
  if nbits ≤ 32 ∧ w < 2 ^ nbits then
    match decodeBytes (bytesOfWord (BitVec.ofNat 32 w)) with
    | .ok (i, _) => some i
    | .error _ => none
  else none

end Sys2Proof
end

