-- ==== Sys2Proof/Machine/Flags.lean ====
section
/-!
DEFINITION. The block's flags: `BUSY` and `DONE` (spec/10_state.md R23, R25) and what acceptance and completion do to
them (spec/30_encoding.md R84, spec/42_orchestrator.md R165, R170). There is no arithmetic flag (R23): no computation of
the block sets a carry, an overflow or a saturation flag.
-/

namespace Sys2Proof.Machine

/-- A Bool as the number of one bit. -/
def bitNat (b : Bool) : Nat := if b then 1 else 0

/-- The word a read of `STATUS` returns (R25): `BUSY` = bit 0, `DONE` = bit 1, bits [31:2] read 0. -/
def statusWord (st : Status) : Word := BitVec.ofNat 32 (bitNat st.busy + 2 * bitNat st.done)

/-- The flags when a command has been accepted (30_encoding.md R84): `DONE <- 0`, `BUSY <- 1`. -/
def Status.accepted (_ : Status) : Status := ⟨true, false⟩

/-- The flags when a command has completed (40_reorder.md R106, 41_butterfly.md R140, 42_orchestrator.md R165):
`BUSY <- 0`, `DONE <- 1`. -/
def Status.completed (_ : Status) : Status := ⟨false, true⟩

/-- `WARMUP` sets `DONE` and leaves `BUSY` as it is (42_orchestrator.md R170). -/
def Status.warmed (st : Status) : Status := { st with done := true }

end Sys2Proof.Machine
end

