-- ==== Sys2Proof/Machine/Packing.lean ====
section
/-!
DEFINITION. The packed form of a sample at the host windows and in `TW` (spec/20_memory.md R52, R70).
-/

namespace Sys2Proof.Machine

/-- `pack` (R52): the real part in bits [15:0], the imaginary part in bits [31:16]. -/
def pack (c : Sample) : Word := c.im ++ c.re

/-- `unpack` (R52). -/
def unpack (w : Word) : Sample := ⟨w.extractLsb' 0 16, w.extractLsb' 16 16⟩

end Sys2Proof.Machine
end

