-- ==== Sys2Proof/Machine/Ops.lean ====
section
/-!
DEFINITION. The named operations every meaning is made of: the sample memories (spec/20_memory.md R50, R54,
spec/10_state.md R34, R41), acceptance and completion of a command (spec/30_encoding.md R84), and the sequencing of steps
that can be refused (spec/00_scope.md R17). The block has no exception entry and no return from one (spec/60_exceptions.md
R180, R185, R187), so there is no operation for either.
-/

namespace Sys2Proof.Machine

/-! ### Sample memories -/

/-- The entry `i` of a memory; `none` is an unwritten entry (R41). -/
def Mem.get? : Mem → Nat → Option Sample
  | [], _ => none
  | (j, x) :: rest, i => if j = i then some x else Mem.get? rest i

/-- `S[i] <- x`: the entry `i` becomes a written entry that holds `x` (R41, R54). Every other entry is as it was. -/
def Mem.set : Mem → Nat → Sample → Mem
  | [], i, x => [(i, x)]
  | (j, y) :: rest, i, x =>
    if i < j then (i, x) :: (j, y) :: rest
    else if i = j then (i, x) :: rest
    else (j, y) :: Mem.set rest i x

/-- The canonical form: indices strictly rising. No entry can equal what an unlisted index reads as, since an unlisted
index reads as no value. -/
def Mem.wf : Mem → Bool
  | [] => true
  | [_] => true
  | (i, _) :: (j, y) :: rest => decide (i < j) && Mem.wf ((j, y) :: rest)

/-- Every listed index is below `n`: the memory lists no entry beyond the size of its space (10_state.md R34). -/
def Mem.below (n : Nat) (m : Mem) : Bool := m.all fun e => decide (e.1 < n)

/-- The `n` entries from index `i` on, if all of them are written. -/
def Mem.readFrom (m : Mem) : Nat → Nat → Option (List Sample)
  | _, 0 => some []
  | i, n + 1 =>
    match Mem.get? m i, Mem.readFrom m (i + 1) n with
    | some x, some xs => some (x :: xs)
    | _, _ => none

/-- The whole contents of a memory of `n` entries, if every entry is a written entry (R41). -/
def Mem.buffer? (m : Mem) (n : Nat) : Option (List Sample) := Mem.readFrom m 0 n

/-- Every one of the `n` entries is a written entry: the precondition of 40_reorder.md R107, 41_butterfly.md R141 (e),
42_orchestrator.md R167 (b). -/
def Mem.allWritten (m : Mem) (n : Nat) : Bool := (Mem.buffer? m n).isSome

/-- Writes the samples of a list to the entries from index `i` on. -/
def Mem.writeFrom (m : Mem) : Nat → List Sample → Mem
  | _, [] => m
  | i, x :: xs => Mem.writeFrom (Mem.set m i x) (i + 1) xs

/-- Writes a whole buffer to the entries `0, 1, ...`. -/
def Mem.store (m : Mem) (buf : List Sample) : Mem := Mem.writeFrom m 0 buf

/-- Entry `i` of a buffer held as a list. The zero is never read: every index a phase forms is below the length of its
buffer (41_butterfly.md R136; log 13). -/
def sampleAt (buf : List Sample) (i : Nat) : Sample := buf.getD i Sample.zero

/-! ### Outcomes -/

/-- Goes on with the next state; a fault or a refusal ends the step (00_scope.md R17). -/
def andThen (o : Host.Outcome State Fault Refusal) (f : State → Host.Outcome State Fault Refusal) :
    Host.Outcome State Fault Refusal :=
  match o with
  | .next s => f s
  | .fault r => .fault r
  | .refused r => .refused r

/-! ### State updates -/

/-- Acceptance of a command (30_encoding.md R84): `DONE <- 0`, `BUSY <- 1`, `SEQ` as the command's rule says. -/
def State.accept (s : State) (q : Seq) : State := { s with status := s.status.accepted, seq := q }

/-- Completion of a command (R106, R140, R165): `SEQ.phase <- IDLE`, `BUSY <- 0`, `DONE <- 1`. -/
def State.complete (s : State) : State :=
  { s with status := s.status.completed, seq := { s.seq with phase := .idle } }

/-- Replaces the contents of `DST` by a whole buffer. -/
def State.storeDst (s : State) (buf : List Sample) : State := { s with dst := Mem.store s.dst buf }

/-- Moves the sequencer to another phase of the running command. -/
def State.toPhase (s : State) (q : Seq) : State := { s with seq := q }

/-- The host takes the word its read returned. -/
def State.give (s : State) (w : Word) : State := { s with rdata := w :: s.rdata }

/-- The program's result lists `unpack` of the word the host has just read (30_encoding.md R88). Used right after
a read that answers, so there is such a word. -/
def State.listRead (s : State) : State :=
  match s.rdata with
  | w :: _ => { s with result := unpack w :: s.result }
  | [] => s

/-- The list of host actions still to come. -/
def State.withPending (s : State) (ops : List HostOp) : State := { s with pending := ops }

/-- `RESET` (70_reset_and_hazards.md R200, R201): the state of 10_state.md R40 and R41; the build is unaffected (R42), and
so are the host's own plans and notes (log 12). -/
def State.doReset (s : State) : State :=
  { State.resetOf s.cfg with grain := s.grain, pending := s.pending, rdata := s.rdata, result := s.result }

end Sys2Proof.Machine
end

