-- ==== Sys2Proof/Machine/Butterfly.lean ====
section
/-!
DEFINITION. The radix-4 butterfly, the layer, and the phase and command made of them (spec/41_butterfly.md).
-/

namespace Sys2Proof.Machine

/-! ### One butterfly (R126 to R133) -/

/-- The values of one butterfly between its four reads and its four writes (R127 to R131), under the names the spec gives
them. They are temporaries, not state (10_state.md R22). -/
structure Tree where
  p0 : Wide
  p1 : Wide
  p2 : Wide
  p3 : Wide
  f0 : Wide
  f1 : Wide
  f2 : Wide
  f3 : Wide
  s0 : Wide
  d0 : Wide
  s1 : Wide
  d1 : Wide
  y0 : Wide
  y1 : Wide
  y2 : Wide
  y3 : Wide
deriving DecidableEq, Repr

/-- The cross output 1 (R131). -/
def crossOne (dir : Dir) (d0 d1 : Wide) : Wide :=
  match dir with
  | .forward => wadd d0 (rotm d1)
  | .inverse => wadd d0 (rotp d1)

/-- The cross output 3 (R131). -/
def crossThree (dir : Dir) (d0 d1 : Wide) : Wide :=
  match dir with
  | .forward => wadd d0 (rotp d1)
  | .inverse => wadd d0 (rotm d1)

/-- The values of one butterfly (R133): prescale (R127), twiddle rotation with the pairing of R126 (`x1` meets `w2`, `x2`
meets `w1`; R128), sum/difference tree (R129), straight outputs (R130), cross outputs (R131). -/
def bflyTree (dir : Dir) (x0 x1 x2 x3 w1 w2 w3 : Sample) : Tree :=
  let p0 := q4c x0
  let p1 := q4c x1
  let p2 := q4c x2
  let p3 := q4c x3
  let f0 := p0
  let f2 := cmul p1 w2
  let f1 := cmul p2 w1
  let f3 := cmul p3 w3
  let s0 := wadd f0 f2
  let d0 := wsub f0 f2
  let s1 := wadd f1 f3
  let d1 := wsub f1 f3
  { p0 := p0, p1 := p1, p2 := p2, p3 := p3, f0 := f0, f1 := f1, f2 := f2, f3 := f3,
    s0 := s0, d0 := d0, s1 := s1, d1 := d1,
    y0 := wadd s0 s1, y1 := crossOne dir d0 d1, y2 := wsub s0 s1, y3 := crossThree dir d0 d1 }

/-- The four results of a butterfly, in the order of the offsets `0, m, 2m, 3m` they are written to (R132). -/
structure Quad where
  o0 : Sample
  o1 : Sample
  o2 : Sample
  o3 : Sample
deriving DecidableEq, Repr

/-- `bfly` (R133): the values of the butterfly, each component wrapped at write-back (R125, R132). -/
def bfly (dir : Dir) (x0 x1 x2 x3 w1 w2 w3 : Sample) : Quad :=
  let t := bflyTree dir x0 x1 x2 x3 w1 w2 w3
  ⟨wrap16c t.y0, wrap16c t.y1, wrap16c t.y2, wrap16c t.y3⟩

/-! ### One layer (R134 to R138) -/

/-- The entry `i` of the twiddle table; never read beyond its end (R136, R141 (d)). -/
def twiddle (c : Config) (i : Nat) : Sample := sampleAt c.tw i

/-- The index of sample `q` of the butterfly at position `k` of group `g` (R135), for the quarter stride `m`. -/
def sampleIndex (m g k q : Nat) : Nat := g * (4 * m) + k + q * m

/-- The butterfly at position `gk.2` of group `gk.1` on the contents of `buf`, with the twiddles of its position (R134,
R135). -/
def bflyOn (c : Config) (tws m : Nat) (buf : List Sample) (gk : Nat × Nat) : Quad :=
  bfly c.dir (sampleAt buf (sampleIndex m gk.1 gk.2 0)) (sampleAt buf (sampleIndex m gk.1 gk.2 1))
    (sampleAt buf (sampleIndex m gk.1 gk.2 2)) (sampleAt buf (sampleIndex m gk.1 gk.2 3))
    (twiddle c (tws + gk.2)) (twiddle c (tws + 2 * gk.2)) (twiddle c (tws + 3 * gk.2))

/-- The four results go back to the four positions they were read from (R132); all four reads come first
(20_memory.md R58). -/
def bflyAt (c : Config) (tws m : Nat) (buf : List Sample) (gk : Nat × Nat) : List Sample :=
  let o := bflyOn c tws m buf gk
  (((buf.set (sampleIndex m gk.1 gk.2 0) o.o0).set (sampleIndex m gk.1 gk.2 1) o.o1).set
    (sampleIndex m gk.1 gk.2 2) o.o2).set (sampleIndex m gk.1 gk.2 3) o.o3

/-- The butterflies of a layer in the order of the loop of R137: groups outside, positions inside, ascending. -/
def layerWork (m groups : Nat) : List (Nat × Nat) :=
  (List.range groups).flatMap fun g => (List.range m).map fun k => (g, k)

/-- The butterflies of a layer done in place one after another in the given order (R138: the order is free). -/
def layerInOrder (c : Config) (tws m : Nat) (order : List (Nat × Nat)) (buf : List Sample) : List Sample :=
  order.foldl (bflyAt c tws m) buf

/-- `layer(buf, tws, stride, groups)` (R137). -/
def layer (c : Config) (buf : List Sample) (tws stride groups : Nat) : List Sample :=
  layerInOrder c tws (stride / 4) (layerWork (stride / 4) groups) buf

/-! ### The phase and the command (R140, R141) -/

/-- Preconditions of `RUNLAYER` in the order of the table of 60_exceptions.md R184, and its acceptance (R140, R141):
`SEQ <- (LAYER, 0, -, stride/4, tws)`; the field written `-` keeps its value (log 5). -/
def acceptRunlayer (s : State) : Host.Outcome State Fault Refusal :=
  if s.status.busy then .refused .busyWrite
  else if !(strideOk s.opStride && groupsOk s.cfg s.opStride s.opGroups) then .refused .badOperand
  else if !reachOk s.cfg s.opTws (s.opStride / 4) then .refused .badIndex
  else if !Mem.allWritten s.dst s.cfg.N then .refused .unwrittenSample
  else .next (s.accept ⟨.layer, false, s.seq.i, s.opStride / 4, s.arg0⟩)

/-- The work of a layer phase (R140; 42_orchestrator.md R163): `DST <- layer(DST, tws, 4*m, N/(4*m))`. -/
def layerWorkPhase (s : State) : Host.Outcome State Fault Refusal :=
  if reachOk s.cfg s.seq.tws.toNat s.seq.m then
    match Mem.buffer? s.dst s.cfg.N with
    | some buf =>
      .next (s.storeDst (layer s.cfg buf s.seq.tws.toNat (4 * s.seq.m) (s.cfg.N / (4 * s.seq.m))))
    | none => .refused .unwrittenSample
  else .refused .badIndex

/-- What follows a layer phase: under `TRANSFORM`, if `4*m < N`, `SEQ <- (LAYER, 1, i+1, 4*m, SCHED[i+1])`
(42_orchestrator.md R163, the block's one control transfer, R171); otherwise completion (R140, R165). -/
def afterLayer (s : State) : Host.Outcome State Fault Refusal :=
  if s.seq.chain && decide (4 * s.seq.m < s.cfg.N) then
    match s.cfg.sched[s.seq.i + 1]? with
    | some t => .next (s.toPhase ⟨.layer, true, s.seq.i + 1, 4 * s.seq.m, t⟩)
    | none => .refused .badIndex
  else .next s.complete

/-- The layer phase of the sequencer (R140, R163). -/
def layerPhase (s : State) : Host.Outcome State Fault Refusal := andThen (layerWorkPhase s) afterLayer

/-- `RUNLAYER` (R140) as one step: acceptance, then its one phase. -/
def execRunlayer (s : State) : Host.Outcome State Fault Refusal := andThen (acceptRunlayer s) layerPhase

end Sys2Proof.Machine
end

