-- ==== Sys2Proof/Machine/Reorder.lean ====
section
/-!
DEFINITION. The bit-reversal permutation network and the phase and command made of it (spec/40_reorder.md).
-/

namespace Sys2Proof.Machine

/-- `bitrev(i, n)` (R100): the low `n` bits of `i` read backwards. Bit 0 of `i` is the top bit of the result. -/
def bitrev (i : Nat) : Nat → Nat
  | 0 => 0
  | n + 1 => (i % 2) * 2 ^ n + bitrev (i / 2) n

/-- The source slot of a destination slot (R102, R103): `bitrev(i, 2*K)`. -/
def sourceSlot (c : Config) (i : Nat) : Nat := bitrev i c.log2N

/-- `reorder(src)` (R103): `dst[i] = src[bitrev(i, n)]` for every `i` in `0 .. N-1`, each sample whole and unchanged. -/
def reorder (c : Config) (src : List Sample) : List Sample :=
  (List.range c.N).map fun i => sampleAt src (sourceSlot c i)

/-- One copy of the reorder phase (R106): `DST[i] <- SRC[bitrev(i, 2*K)]`, on buffers. -/
def copyOne (c : Config) (src dst : List Sample) (i : Nat) : List Sample :=
  dst.set i (sampleAt src (sourceSlot c i))

/-- The copies of the reorder phase done one after another in the given order of destination slots (R104: the order is
free). The machine uses `reorder`; this is the form in which its order freedom is stated. -/
def copyInOrder (c : Config) (order : List Nat) (src dst : List Sample) : List Sample :=
  order.foldl (copyOne c src) dst

/-- Preconditions of `REORDER` and its acceptance (R106, R107): `SEQ <- (REORDER, 0, -, -, -)`; the fields written `-`
keep their values (log 5). -/
def acceptReorder (s : State) : Host.Outcome State Fault Refusal :=
  if s.status.busy then .refused .busyWrite
  else if Mem.allWritten s.src s.cfg.N then
    .next (s.accept { s.seq with phase := .reorder, chain := false })
  else .refused .unwrittenSample

/-- The work of the reorder phase (R106, R162): every entry of `DST` is written, `SRC` is not. -/
def copyPhase (s : State) : Host.Outcome State Fault Refusal :=
  match Mem.buffer? s.src s.cfg.N with
  | some buf => .next (s.storeDst (reorder s.cfg buf))
  | none => .refused .unwrittenSample

/-- What follows the reorder phase: under `TRANSFORM`, `SEQ <- (LAYER, 1, 0, 1, SCHED[0])` (42_orchestrator.md R162);
otherwise completion (R106). -/
def afterReorder (s : State) : Host.Outcome State Fault Refusal :=
  if s.seq.chain then
    match s.cfg.sched[0]? with
    | some t => .next (s.toPhase ⟨.layer, true, 0, 1, t⟩)
    | none => .refused .badIndex
  else .next s.complete

/-- The reorder phase of the sequencer (R106, R162). -/
def reorderPhase (s : State) : Host.Outcome State Fault Refusal := andThen (copyPhase s) afterReorder

/-- `REORDER` (R106) as one step: acceptance, then its one phase. -/
def execReorder (s : State) : Host.Outcome State Fault Refusal := andThen (acceptReorder s) reorderPhase

end Sys2Proof.Machine
end

