-- ==== Sys2Proof/Machine/Orchestrator.lean ====
section
/-!
DEFINITION. The layer orchestrator: the transform as a function (spec/42_orchestrator.md R160), the sequencer's advance
from phase to phase (R161 to R165), the commands `TRANSFORM` and `WARMUP` (R170).
-/

namespace Sys2Proof.Machine

/-- Entry `l` of `SCHED` as an unsigned integer (00_scope.md R16). The zero beyond its end is never read when `CfgOK`
holds (R164). -/
def schedAt (c : Config) (l : Nat) : Nat := (c.sched.getD l 0).toNat

/-- The loop of R160, `while m < N`, with at most `fuel` iterations; `K` are enough (R164). -/
def transformLoop (c : Config) : Nat → Nat → Nat → List Sample → List Sample
  | 0, _, _, buf => buf
  | fuel + 1, i, m, buf =>
    if m < c.N then
      transformLoop c fuel (i + 1) (4 * m) (layer c buf (schedAt c i) (4 * m) (c.N / (4 * m)))
    else buf

/-- `transform(src)` (R160). -/
def transform (c : Config) (src : List Sample) : List Sample :=
  transformLoop c (c.K + 1) 0 1 (reorder c src)

/-- The sequencer completes the phase it is in and goes on to the next one (R161 to R163, R165). In `IDLE` it waits
(60_exceptions.md R195): nothing changes. -/
def advance (s : State) : Host.Outcome State Fault Refusal :=
  match s.seq.phase with
  | .idle => .next s
  | .reorder => reorderPhase s
  | .layer => layerPhase s

/-- The sequencer runs until it is idle, at most `n` phases. -/
def runPhases : Nat → State → Host.Outcome State Fault Refusal
  | 0, s => .next s
  | n + 1, s => andThen (advance s) (runPhases n)

/-- Preconditions of `TRANSFORM` in the order of the table of 60_exceptions.md R184, and its acceptance (R161, R167):
`SEQ <- (REORDER, 1, 0, 1, -)`; the field written `-` keeps its value (log 5). -/
def acceptTransform (s : State) : Host.Outcome State Fault Refusal :=
  if s.status.busy then .refused .busyWrite
  else if !s.cfg.cfgOk then .refused .badConfig
  else if !Mem.allWritten s.src s.cfg.N then .refused .unwrittenSample
  else .next (s.accept ⟨.reorder, true, 0, 1, s.seq.tws⟩)

/-- `TRANSFORM` (R161 to R165) as one step: acceptance, then its `K + 1` phases (70_reset_and_hazards.md R213). -/
def execTransform (s : State) : Host.Outcome State Fault Refusal :=
  andThen (acceptTransform s) (runPhases (s.cfg.K + 1))

/-- `WARMUP` (R170): acceptance and completion are one step, and the only effect is `DONE <- 1`. -/
def execWarmup (s : State) : Host.Outcome State Fault Refusal :=
  if s.status.busy then .refused .busyWrite else .next { s with status := s.status.warmed }

end Sys2Proof.Machine
end

