-- ==== Sys2Proof/Machine/Dispatch.lean ====
section
/-! DEFINITION. What each command does as one step (spec/00_scope.md R11): one arm per constructor of `Instr`. -/

namespace Sys2Proof.Machine

def exec (i : Instr) (s : State) : Host.Outcome State Fault Refusal :=
  match i with
  | .warmup => Sys2Proof.Machine.execWarmup s
  | .reorder => Sys2Proof.Machine.execReorder s
  | .runlayer => Sys2Proof.Machine.execRunlayer s
  | .transform => Sys2Proof.Machine.execTransform s

end Sys2Proof.Machine
end

