-- ==== Sys2Proof/Machine/Bus.lean ====
section
/-!
DEFINITION. The host interface: the three windows (spec/20_memory.md R54, R55, R57, R60), the registers behind the first
(spec/10_state.md section 5), who may access what while `BUSY` = 1 (R62), the issue of a command (spec/30_encoding.md
R84), and the host's actions one by one (R88). Where several reasons of spec/60_exceptions.md R184 apply, one of them is
recorded, and which is not significant (R183; log 9).
-/

namespace Sys2Proof.Machine

/-! ### The address map -/

/-- What a host access can reach (20_memory.md R54, R57). -/
inductive Target where
  | cmd
  | status
  | arg0
  | arg1
  | arg2
  | cfg
  | src (i : Nat)
  | dst (i : Nat)
deriving DecidableEq, Repr

/-- The register at an offset of the register block (10_state.md section 5); offsets 0x18 and above are reserved (R29). -/
def regAt (offset : Nat) : Option Target :=
  if offset = 0x00 then some .cmd
  else if offset = 0x04 then some .status
  else if offset = 0x08 then some .arg0
  else if offset = 0x0C then some .arg1
  else if offset = 0x10 then some .arg2
  else if offset = 0x14 then some .cfg
  else none

/-- What an aligned byte address reaches (R54, R57, R60), `none` outside the three windows. The windows of a well-formed
build are disjoint (R55); otherwise the first of registers, `SRC`, `DST` is taken (log 10). -/
def targetAt (c : Config) (a : Nat) : Option Target :=
  if c.regBase ≤ a ∧ a < c.regBase + 0x18 then regAt (a - c.regBase)
  else if c.srcBase ≤ a ∧ a < c.srcBase + 4 * c.N then some (.src ((a - c.srcBase) / 4))
  else if c.dstBase ≤ a ∧ a < c.dstBase + 4 * c.N then some (.dst ((a - c.dstBase) / 4))
  else none

/-! ### Register values -/

/-- `CFG.DIR` (10_state.md R28): 0 for `FORWARD`, 1 for `INVERSE`. -/
def dirBit : Dir → Nat
  | .forward => 0
  | .inverse => 1

/-- The word a read of `CFG` returns (R28): `LOG4N` = `K` in bits [3:0], `DIR` in bit 4, bits [31:5] read 0. A `K`
that does not fit 4 bits is cut (log 11; no build of the spec has one). -/
def cfgWord (c : Config) : Word := BitVec.ofNat 32 (c.K % 16 + 16 * dirBit c.dir)

/-! ### Reads -/

/-- A host read of one sample (R54): `pack` of the entry; an unwritten entry has no value (10_state.md R41). -/
def readSample (m : Mem) (i : Nat) (s : State) : Host.Outcome State Fault Refusal :=
  match Mem.get? m i with
  | some x => .next (s.give (pack x))
  | none => .refused .unwrittenSample

/-- A host read that the block must own nothing for: `STATUS` and `CFG` at any time (R25, R28, R62); everything else only
while `BUSY` = 0. No read changes the block (R59). -/
def readTarget (t : Target) (s : State) : Host.Outcome State Fault Refusal :=
  match t with
  | .status => .next (s.give (statusWord s.status))
  | .cfg => .next (s.give (cfgWord s.cfg))
  | .cmd => if s.status.busy then .refused .busyAccess else .next (s.give 0)
  | .arg0 => if s.status.busy then .refused .busyAccess else .next (s.give s.arg0)
  | .arg1 => if s.status.busy then .refused .busyAccess else .next (s.give s.arg1)
  | .arg2 => if s.status.busy then .refused .busyAccess else .next (s.give s.arg2)
  | .src i => if s.status.busy then .refused .busyAccess else readSample s.src i s
  | .dst i => if s.status.busy then .refused .busyAccess else readSample s.dst i s

/-! ### Commands -/

/-- Acceptance of a command as a step of its own (R84): what a command write does under `Grain.phase`. `WARMUP` is complete
when it is accepted (R170). -/
def accept (i : Instr) (s : State) : Host.Outcome State Fault Refusal :=
  match i with
  | .warmup => execWarmup s
  | .reorder => acceptReorder s
  | .runlayer => acceptRunlayer s
  | .transform => acceptTransform s

/-- A decoded command, run whole or only accepted (log 3). -/
def issue (i : Instr) (s : State) : Host.Outcome State Fault Refusal :=
  match s.grain with
  | .command => exec i s
  | .phase => accept i s

/-- A write of word `w` to `CMD` (10_state.md R24; 30_encoding.md R84, R85). -/
def writeCmd (w : Word) (s : State) : Host.Outcome State Fault Refusal :=
  match decode w with
  | .ok i => issue i s
  | .error _ => if s.status.busy then .refused .busyWrite else .refused .reservedCommand

/-! ### Writes -/

/-- A host write of word `w` (R24 to R28, R54, R59). `STATUS` and `CFG` ignore it (R25, R28), but while `BUSY` = 1 no host
write is inside the contract (R25, R62, R183; log 8). -/
def writeTarget (t : Target) (w : Word) (s : State) : Host.Outcome State Fault Refusal :=
  match t with
  | .cmd => writeCmd w s
  | .status => if s.status.busy then .refused .busyWrite else .next s
  | .cfg => if s.status.busy then .refused .busyWrite else .next s
  | .arg0 => if s.status.busy then .refused .busyWrite else .next { s with arg0 := w }
  | .arg1 => if s.status.busy then .refused .busyWrite else .next { s with arg1 := w }
  | .arg2 => if s.status.busy then .refused .busyWrite else .next { s with arg2 := w }
  | .src i =>
    if s.status.busy then .refused .busyAccess else .next { s with src := Mem.set s.src i (unpack w) }
  | .dst i =>
    if s.status.busy then .refused .busyAccess else .next { s with dst := Mem.set s.dst i (unpack w) }

/-! ### The host's actions -/

/-- The only legal width and alignment (20_memory.md R55): 4 bytes at a multiple of 4. -/
def accessOk (a size : Nat) : Bool := decide (size = 4) && decide (a % 4 = 0)

/-- A host read (R55, R88). -/
def busRead (a size : Nat) (s : State) : Host.Outcome State Fault Refusal :=
  if accessOk a size then
    match targetAt s.cfg a with
    | some t => readTarget t s
    | none => .refused .badAddress
  else .refused .badAccess

/-- A host write (R55, R88). -/
def busWrite (a size : Nat) (w : Word) (s : State) : Host.Outcome State Fault Refusal :=
  if accessOk a size then
    match targetAt s.cfg a with
    | some t => writeTarget t w s
    | none => .refused .badAddress
  else .refused .badAccess

/-- `GETSRC` and `GETDST` (R88): a 32-bit host read, after which the program's result lists `unpack` of the word read. -/
def busGet (a : Nat) (s : State) : Host.Outcome State Fault Refusal :=
  andThen (busRead a 4 s) fun t => .next t.listRead

/-- One turn of `WAIT` (R88): a read of `STATUS`. Bit 0 = 0 ends the wait; otherwise the block completes a phase and the
`WAIT` is still to be done (log 15). -/
def waitTurn (s : State) : Host.Outcome State Fault Refusal :=
  andThen (readTarget .status s) fun s' =>
    if s.status.busy then andThen (advance s') fun t => .next (t.withPending (.wait :: t.pending))
    else .next s'

/-- One action of the host, already taken from `pending`. -/
def hostAction (op : HostOp) (s : State) : Host.Outcome State Fault Refusal :=
  match op with
  | .write a size w => busWrite a size w s
  | .read a size => busRead a size s
  | .get a => busGet a s
  | .wait => waitTurn s
  | .reset => .next s.doReset
  | .tick => advance s

/-- The next action of the host; where none is pending the block goes on alone, and waits when it is idle
(60_exceptions.md R195; log 14). -/
def nextAction (s : State) : Host.Outcome State Fault Refusal :=
  match s.pending with
  | [] => advance s
  | op :: rest => hostAction op (s.withPending rest)

/-! ### Bytes -/

/-- Byte `b` (0 to 3) of a word, little-endian (20_memory.md R53). -/
def byteOf (w : Word) (b : Nat) : Byte := w.extractLsb' (8 * b) 8

/-- The byte a platform bridge shows at byte address `a` of a sample window (R53); `none` where no written sample is. -/
def State.byteAt (s : State) (a : Nat) : Option Byte :=
  match targetAt s.cfg a with
  | some (.src i) => (Mem.get? s.src i).map fun x => byteOf (pack x) ((a - s.cfg.srcBase) % 4)
  | some (.dst i) => (Mem.get? s.dst i).map fun x => byteOf (pack x) ((a - s.cfg.dstBase) % 4)
  | _ => none

end Sys2Proof.Machine
end

