-- ==== Sys2Proof/Machine/Step.lean ====
section
/-!
DEFINITION. One step of the machine, and how a command word is placed so that the next step runs it. The block fetches no
instruction from memory (spec/20_memory.md R68): a command arrives as a host write to `CMD`, so the place a step takes its
next instruction from is the head of `pending` (log 2).
-/

namespace Sys2Proof.Machine

/-- One step: the next action of the host, or a phase of the sequencer where none is pending. -/
def step (s : State) : Host.Outcome State Fault Refusal := nextAction s

/-- The state whose very next step runs the command word `w`: a 32-bit host write of `w` to `CMD` is put before whatever is
pending. Bits of `w` above `nbits` are 0 (log 2). -/
def State.withFetchWord (s : State) (nbits w : Nat) : State :=
  s.withPending (.write (s.cfg.regBase + 0x00) 4 (BitVec.ofNat 32 (w % 2 ^ nbits)) :: s.pending)

end Sys2Proof.Machine
end

