-- ==== Sys2Proof/Machine/Asm.lean ====
section
/-!
DEFINITION. The assembler notation (spec/30_encoding.md R87, R88, R89): a program is a list of lines, each line stands for
a list of host actions.
-/

namespace Sys2Proof.Machine

/-- One line of a program (R87, R88). -/
inductive AsmLine where
  | warmup
  | reorder
  /-- `RUNLAYER tws, stride, groups`. -/
  | runlayer (tws stride groups : Nat)
  /-- The bare form of `RUNLAYER`. -/
  | runlayerBare
  | transform
  | wr (addr : Nat) (word : Word)
  | rd (addr : Nat)
  | wait
  | setsrc (i : Nat) (re im : Int)
  | setdst (i : Nat) (re im : Int)
  | getsrc (i : Nat)
  | getdst (i : Nat)
  | reset
deriving DecidableEq, Repr

/-- One aligned 32-bit host write. -/
def wr4 (a : Nat) (w : Word) : HostOp := .write a 4 w

/-- One aligned 32-bit host read. -/
def rd4 (a : Nat) : HostOp := .read a 4

/-- The host write that issues a command (R87). -/
def cmdWrite (c : Config) (i : Instr) : HostOp := wr4 (c.regBase + 0x00) (encode i)

/-- The host actions a line stands for (R87, R88), on a build whose bases are known. Decimal operands are taken modulo
the width of the register or component they go to (log 18). -/
def AsmLine.expand (c : Config) : AsmLine → List HostOp
  | .warmup => [cmdWrite c .warmup]
  | .reorder => [cmdWrite c .reorder]
  | .runlayer tws stride groups =>
    [wr4 (c.regBase + 0x08) (BitVec.ofNat 32 tws), wr4 (c.regBase + 0x0C) (BitVec.ofNat 32 stride),
     wr4 (c.regBase + 0x10) (BitVec.ofNat 32 groups), cmdWrite c .runlayer]
  | .runlayerBare => [cmdWrite c .runlayer]
  | .transform => [cmdWrite c .transform]
  | .wr a w => [wr4 a w]
  | .rd a => [rd4 a]
  | .wait => [.wait]
  | .setsrc i re im => [wr4 (c.srcBase + 4 * i) (pack (Sample.ofInts re im))]
  | .setdst i re im => [wr4 (c.dstBase + 4 * i) (pack (Sample.ofInts re im))]
  | .getsrc i => [.get (c.srcBase + 4 * i)]
  | .getdst i => [.get (c.dstBase + 4 * i)]
  | .reset => [.reset]

/-- The host actions of a program, in order (R88). -/
def assemble (c : Config) (prog : List AsmLine) : List HostOp := prog.flatMap (AsmLine.expand c)

/-- The chain of single commands that stands for one `TRANSFORM` (42_orchestrator.md R166): `REORDER; WAIT`, then for each
layer `RUNLAYER SCHED[l], 4^(l+1), N/4^(l+1); WAIT`. -/
def chainProgram (c : Config) : List AsmLine :=
  [.reorder, .wait] ++
    (List.range c.K).flatMap fun l => [.runlayer (schedAt c l) (4 ^ (l + 1)) (c.N / 4 ^ (l + 1)), .wait]

/-- A program loaded into a state: its actions come before whatever the host already had pending (log 2). -/
def State.load (s : State) (prog : List AsmLine) : State := s.withPending (assemble s.cfg prog ++ s.pending)

end Sys2Proof.Machine
end

