-- ==== Sys2Proof/Safety.lean ====
section
/-!
DEFINITION. What the statements speak of: the violations of the block's contract, written from the table of
spec/60_exceptions.md R184 without the order in which the machine looks for them; the invariant of the machine; what a
command leaves unchanged; runs.
-/

namespace Sys2Proof.Machine

/-! ### Contract violations (60_exceptions.md R184) -/

/-- Reason `r` applies to the issue of command `i` in state `s` (R184; R107, R141, R167, R170). -/
def commandViolation (i : Instr) (s : State) : Refusal → Bool
  | .busyWrite => s.status.busy
  | .badOperand =>
    decide (i = .runlayer) &&
      decide (s.opStride < 4 ∨ s.opStride % 4 ≠ 0 ∨ s.opGroups * s.opStride ≠ s.cfg.N)
  | .badIndex =>
    decide (i = .runlayer) &&
      decide ((s.opTws : Int) + 3 * (((s.opStride / 4 : Nat) : Int) - 1) ≥ (s.cfg.twlen : Int))
  | .badConfig => decide (i = .transform) && !s.cfg.cfgOk
  | .unwrittenSample =>
    (decide (i = .reorder ∨ i = .transform) && !Mem.allWritten s.src s.cfg.N)
      || (decide (i = .runlayer) && !Mem.allWritten s.dst s.cfg.N)
  | _ => false

/-- Reason `r` applies to a host read of target `t` (R184, R62, R41). -/
def readViolation (t : Target) (s : State) (r : Refusal) : Bool :=
  match t with
  | .status => false
  | .cfg => false
  | .cmd => decide (r = .busyAccess) && s.status.busy
  | .arg0 => decide (r = .busyAccess) && s.status.busy
  | .arg1 => decide (r = .busyAccess) && s.status.busy
  | .arg2 => decide (r = .busyAccess) && s.status.busy
  | .src i => (decide (r = .busyAccess) && s.status.busy)
      || (decide (r = .unwrittenSample) && (Mem.get? s.src i).isNone)
  | .dst i => (decide (r = .busyAccess) && s.status.busy)
      || (decide (r = .unwrittenSample) && (Mem.get? s.dst i).isNone)

/-- Reason `r` applies to a host write of word `w` to target `t` (R184, R62, R85; for `STATUS` and `CFG` log 8). -/
def writeViolation (t : Target) (w : Word) (s : State) (r : Refusal) : Bool :=
  match t with
  | .cmd => match decode w with
    | .ok i => commandViolation i s r
    | .error _ => decide (r = .reservedCommand) || (decide (r = .busyWrite) && s.status.busy)
  | .status => decide (r = .busyWrite) && s.status.busy
  | .cfg => decide (r = .busyWrite) && s.status.busy
  | .arg0 => decide (r = .busyWrite) && s.status.busy
  | .arg1 => decide (r = .busyWrite) && s.status.busy
  | .arg2 => decide (r = .busyWrite) && s.status.busy
  | .src _ => decide (r = .busyAccess) && s.status.busy
  | .dst _ => decide (r = .busyAccess) && s.status.busy

/-- Reason `r` applies to a host access of `size` bytes at `a` whose target has the violations `v` (R184, R55, R29). -/
def accessViolation (a size : Nat) (s : State) (v : Target → Bool) (r : Refusal) : Bool :=
  if accessOk a size then
    match targetAt s.cfg a with
    | some t => v t
    | none => decide (r = .badAddress)
  else decide (r = .badAccess)

/-- Reason `r` applies to a host action in state `s` (R184). `WAIT`, `RESET` and a turn left to the block break no
contract. -/
def hostViolation (op : HostOp) (s : State) (r : Refusal) : Bool :=
  match op with
  | .read a size => accessViolation a size s (fun t => readViolation t s r) r
  | .get a => accessViolation a 4 s (fun t => readViolation t s r) r
  | .write a size w => accessViolation a size s (fun t => writeViolation t w s r) r
  | .wait => false
  | .reset => false
  | .tick => false

/-! ### The invariant -/

/-- What the sequencer's state says of the rest while a phase is running: the data the phase reads is written, and the
fields of `SEQ` are those of a layer of the running command (10_state.md R30; 42_orchestrator.md R161 to R164). -/
def seqOk (s : State) : Prop :=
  match s.seq.phase with
  | .idle => True
  | .reorder =>
    Mem.allWritten s.src s.cfg.N = true ∧
      (s.seq.chain = true → s.cfg.cfgOk = true ∧ s.seq.i = 0 ∧ s.seq.m = 1)
  | .layer =>
    Mem.allWritten s.dst s.cfg.N = true ∧
      (s.seq.chain = true → s.cfg.cfgOk = true ∧ s.seq.i < s.cfg.K ∧ s.seq.m = 4 ^ s.seq.i ∧
        s.cfg.sched[s.seq.i]? = some s.seq.tws) ∧
      (s.seq.chain = false → 1 ≤ s.seq.m ∧ s.cfg.N % (4 * s.seq.m) = 0 ∧
        reachOk s.cfg s.seq.tws.toNat s.seq.m = true)

/-- The invariant of the machine: `BUSY` is 1 exactly when the sequencer is not idle (10_state.md R25), `BUSY` and `DONE`
are never both 1 (R25), both memories are in canonical form and list no entry beyond their size (R34), and the sequencer's
fields are those of the running command. -/
structure MachineInv (s : State) : Prop where
  busy_iff : s.status.busy = true ↔ s.seq.phase ≠ .idle
  not_both : ¬(s.status.busy = true ∧ s.status.done = true)
  src_wf : Mem.wf s.src = true
  dst_wf : Mem.wf s.dst = true
  src_below : Mem.below s.cfg.N s.src = true
  dst_below : Mem.below s.cfg.N s.dst = true
  seq_ok : seqOk s

/-! ### What a command leaves unchanged, and what it leaves in `DST` -/

/-- Everything that no command writes (40_reorder.md R106, 41_butterfly.md R140, 42_orchestrator.md R165, R170): the
build, `ARG0..2`, `SRC`, and the model's record of the host. -/
structure CommandFrame (s t : State) : Prop where
  cfg : t.cfg = s.cfg
  arg0 : t.arg0 = s.arg0
  arg1 : t.arg1 = s.arg1
  arg2 : t.arg2 = s.arg2
  src : t.src = s.src
  grain : t.grain = s.grain
  pending : t.pending = s.pending
  rdata : t.rdata = s.rdata
  result : t.result = s.result

/-- `DST` of `t` holds `buf` in its `N` entries, and nothing else of the memory has changed since `s`. -/
def DstBecomes (s t : State) (buf : List Sample) : Prop :=
  (∀ i, i < s.cfg.N → Mem.get? t.dst i = some (sampleAt buf i)) ∧
    ∀ i, s.cfg.N ≤ i → Mem.get? t.dst i = Mem.get? s.dst i

/-- The command has been accepted and nothing of it is done yet (30_encoding.md R84): `DONE` = 0, `BUSY` = 1; besides `SEQ`,
of which the command's own rule speaks, nothing else has changed. -/
def Accepted (s a : State) : Prop := a.status = ⟨true, false⟩ ∧ a.dst = s.dst ∧ CommandFrame s a

/-- The command has completed (R106, R140, R165): `SEQ.phase = IDLE`, `BUSY` = 0, `DONE` = 1. -/
def Completed (t : State) : Prop := t.seq.phase = .idle ∧ t.status = ⟨false, true⟩

/-! ### Words the statements use -/

/-- A wide value whose two components are in `-b .. b`. -/
def WithinBound (b : Int) (u : Wide) : Prop := -b ≤ u.re ∧ u.re ≤ b ∧ -b ≤ u.im ∧ u.im ≤ b

/-- Every component of a sample has magnitude at most `b`. -/
def SampleWithin (b : Int) (x : Sample) : Prop :=
  -b ≤ x.re.toInt ∧ x.re.toInt ≤ b ∧ -b ≤ x.im.toInt ∧ x.im.toInt ≤ b

/-- A stored sample is the exact value, without any wrap. -/
def StoredExactly (o : Sample) (y : Wide) : Prop := o.re.toInt = y.re ∧ o.im.toInt = y.im

/-- The contents of the buffer after the reorder and the first `n` layers of a transform, with the parameters of R164. -/
def bufferAfter (c : Config) (src : List Sample) (n : Nat) : List Sample :=
  (List.range n).foldl
    (fun buf l => layer c buf (schedAt c l) (4 ^ (l + 1)) (4 ^ (c.K - 1 - l))) (reorder c src)

/-- How many phases a command has between its acceptance and its completion (70_reset_and_hazards.md R213;
42_orchestrator.md R161 to R165, R170). -/
def phasesOf (c : Config) : Instr → Nat
  | .warmup => 0
  | .reorder => 1
  | .runlayer => 1
  | .transform => c.K + 1

/-! ### Runs -/

/-- `n` steps of the machine. -/
def runSteps (n : Nat) (s : State) : Host.Outcome State Fault Refusal := Host.Core.run Sys2Proof.core n s

/-- A run of `n` steps is safe: it meets no violation of the contract. -/
def SafeRun (n : Nat) (s : State) : Prop := ∃ t, runSteps n s = .next t

end Sys2Proof.Machine
end

