-- ==== Sys2Proof/WellFormed.lean ====
section
/-!
DEFINITION. Well-formedness. A command has no operand field (spec/30_encoding.md R80, R82), so every `Instr` is well
formed; what can be ill formed is a BUILD of the block (spec/00_scope.md R6 to R9, spec/20_memory.md R55, R60) and a
command WORD (R83, R85). The tests give an ill-formed term for each check.
-/

namespace Sys2Proof

/-- Every command is well formed: no constructor carries a field that could be out of range (R80, R82). -/
def Instr.wellFormed : Instr → Bool
  | .warmup => true
  | .reorder => true
  | .runlayer => true
  | .transform => true

/-- A command word is well formed when its reserved field `RSV`, bits [31:2], is 0 (R80, R85). -/
def Word.commandOk (w : Word) : Bool := decide (w.toNat / 4 = 0)

/-- A build is well formed: `CfgOK`, the length of the twiddle table, the address map. -/
def Config.wellFormed (c : Config) : Bool := c.cfgOk && c.twlenOk && c.mapOk

end Sys2Proof
end

