-- ==== Sys2Proof/Certificates/Slice0/Obligations.lean ====
section
/-!
DEFINITION. The statements for the provers. Each is about the machine for every build (`s.cfg` is any configuration
unless a hypothesis says more) and for every state that meets its hypotheses. Where a statement rests on a choice of this
model, its docstring names the log entry.
-/

open Sys2Proof Sys2Proof.Machine

/-! ### Encoding (30_encoding.md) -/

/-- R81: the four command words, written out, decode to the four commands and are what the encoder gives. -/
def Obligations.OpcodeWordsDecode : Prop :=
  decode 0x00000000 = .ok .warmup ∧ decode 0x00000001 = .ok .reorder ∧
    decode 0x00000002 = .ok .runlayer ∧ decode 0x00000003 = .ok .transform ∧
    encode .warmup = 0x00000000 ∧ encode .reorder = 0x00000001 ∧
    encode .runlayer = 0x00000002 ∧ encode .transform = 0x00000003

/-- R83: decoding is total on 32-bit words. A word with bits [31:2] not all 0 is reserved; any other word is selected by
its bits [1:0]. In match/mask form there are exactly four rows, each with mask `0xFFFFFFFF` and match equal to its command's
word; decoding by them is the same, and no word hits two of them. -/
def Obligations.DecodingIsTotalAndSelectsByOp : Prop :=
  (∀ w : Word,
    (w.toNat / 4 ≠ 0 → decode w = .error .reservedCommand) ∧
    (w.toNat / 4 = 0 →
      (w.toNat % 4 = 0 → decode w = .ok .warmup) ∧ (w.toNat % 4 = 1 → decode w = .ok .reorder) ∧
      (w.toNat % 4 = 2 → decode w = .ok .runlayer) ∧ (w.toNat % 4 = 3 → decode w = .ok .transform))) ∧
  opcodeRows.map (fun r => r.instr) = [.warmup, .reorder, .runlayer, .transform] ∧
  (∀ r ∈ opcodeRows, r.mask = 0xFFFFFFFF ∧ r.pattern = encode r.instr) ∧
  (∀ (w : Word) (i : Instr), decode w = .ok i ↔ ∃ r ∈ opcodeRows, r.hits w = true ∧ r.instr = i) ∧
    ∀ (w : Word), ∀ r ∈ opcodeRows, ∀ r' ∈ opcodeRows, r.hits w = true → r'.hits w = true → r = r'

/-- Decoder and encoder agree in both directions on byte lists: a list decodes to a command and a rest exactly when it is
that command's four bytes followed by that rest. (The byte order is 20_memory.md R53's, log 16.) -/
def Obligations.ByteDecodingInvertsEncoding : Prop :=
  ∀ (bs rest : List Byte) (i : Instr), decodeBytes bs = .ok (i, rest) ↔ bs = encodeBytes i ++ rest

/-! ### The packed word (20_memory.md) -/

/-- R52: `pack` and `unpack` are inverse to each other, the real part is the low half, the imaginary part the high half,
and `unpack` reads each half as a signed 16-bit number. -/
def Obligations.PackAndUnpackAreInverse : Prop :=
  (∀ c : Sample, unpack (pack c) = c) ∧ (∀ w : Word, pack (unpack w) = w) ∧
    (∀ c : Sample, ((pack c).toNat % 65536 : Int) = c.re.toInt % 65536 ∧
      ((pack c).toNat / 65536 : Int) = c.im.toInt % 65536) ∧
    ∀ w : Word,
      (unpack w).re.toInt = (if w.toNat % 65536 < 32768 then (w.toNat % 65536 : Int) else w.toNat % 65536 - 65536) ∧
      (unpack w).im.toInt = (if w.toNat / 65536 < 32768 then (w.toNat / 65536 : Int) else w.toNat / 65536 - 65536)

/-- R53: the four bytes a platform bridge shows of the sample at `SRC_BASE + 4*i` or `DST_BASE + 4*i` are those of the
packed word, little-endian. Only whole samples are stored, so this is the model's byte view (log 7). -/
def Obligations.SampleBytesAreLittleEndian : Prop :=
  ∀ (s : State) (i b : Nat) (x : Sample), s.cfg.mapOk = true → i < s.cfg.N → b < 4 →
    (Mem.get? s.src i = some x →
      ∃ y, s.byteAt (s.cfg.srcBase + 4 * i + b) = some y ∧ y.toNat = (pack x).toNat / 2 ^ (8 * b) % 256) ∧
    (Mem.get? s.dst i = some x →
      ∃ y, s.byteAt (s.cfg.dstBase + 4 * i + b) = some y ∧ y.toNat = (pack x).toNat / 2 ^ (8 * b) % 256)

/-! ### Arithmetic (41_butterfly.md, 00_scope.md R15) -/

/-- R15: `wrap16(z) = ((z + 32768) mod 65536) - 32768`, the only 16-bit signed value congruent to `z` modulo 65536. -/
def Obligations.WrapIsCongruentAndUnique : Prop :=
  ∀ z : Int, (wrap16 z).toInt = (z + 32768) % 65536 - 32768 ∧
    ∀ v : Half, v.toInt % 65536 = z % 65536 → v = wrap16 z

/-- R121: the prescale is round-half-up on a right shift of 2 bits of an exact sum, `floor((x + 2) / 4)`; its result lies in
`-8192 .. 8192`; a sample is prescaled component by component. -/
def Obligations.PrescaleRoundsHalfUp : Prop :=
  (∀ x : Half, 4 * q4 x ≤ x.toInt + 2 ∧ x.toInt + 2 < 4 * q4 x + 4 ∧ -8192 ≤ q4 x ∧ q4 x ≤ 8192) ∧
    ∀ c : Sample, q4c c = ⟨q4 c.re, q4 c.im⟩

/-- R122: the product rounding is round-half-up on a right shift of 15 bits, and it is not odd: at a tie
`rq15(-p) = 1 - rq15(p)`, otherwise `rq15(-p) = -rq15(p)`. -/
def Obligations.ProductRoundingIsHalfUpAndNotOdd : Prop :=
  ∀ p : Int, 32768 * rq15 p ≤ p + 16384 ∧ p + 16384 < 32768 * rq15 p + 32768 ∧
    (p % 32768 = 16384 → rq15 (-p) = 1 - rq15 p) ∧ (p % 32768 ≠ 16384 → rq15 (-p) = -rq15 p)

/-- R124: the exact cases of the product rounding and of the complex product. Both components of the multiplied value are in
`-16383 .. 16384`. -/
def Obligations.ExactTwiddleProducts : Prop :=
  (∀ v : Int, (-16384 < v → v ≤ 16384 → rq15 (v * 32767) = v) ∧ rq15 (v * 0) = 0 ∧ rq15 (v * -32768) = -v) ∧
  ∀ a b : Int, -16384 < a → a ≤ 16384 → -16384 < b → b ≤ 16384 →
    cmul ⟨a, b⟩ (Sample.ofInts 32767 0) = ⟨a, b⟩ ∧ cmul ⟨a, b⟩ (Sample.ofInts 0 (-32768)) = ⟨b, -a⟩ ∧
    cmul ⟨a, b⟩ (Sample.ofInts (-32768) 0) = ⟨-a, -b⟩ ∧ cmul ⟨a, b⟩ (Sample.ofInts 0 32767) = ⟨-b, a⟩

/-- R125: what a butterfly stores is its wide result, each component wrapped to 16 bits on its own; and a datapath that wraps
to 16 bits after every addition and subtraction of the sum/difference tree stores the same. The right sides of the last
clauses are 16-bit arithmetic on the wrapped inputs of the tree. -/
def Obligations.WrappingEveryTreeSumStoresTheSame : Prop :=
  (∀ y : Wide, wrap16c y = ⟨wrap16 y.re, wrap16 y.im⟩) ∧
  ∀ (dir : Dir) (x0 x1 x2 x3 w1 w2 w3 : Sample),
    let t := bflyTree dir x0 x1 x2 x3 w1 w2 w3
    let o := bfly dir x0 x1 x2 x3 w1 w2 w3
    let f0 := wrap16c t.f0
    let f1 := wrap16c t.f1
    let f2 := wrap16c t.f2
    let f3 := wrap16c t.f3
    let up : Sample := ⟨(f0.re - f2.re) + (f1.im - f3.im), (f0.im - f2.im) - (f1.re - f3.re)⟩
    let down : Sample := ⟨(f0.re - f2.re) - (f1.im - f3.im), (f0.im - f2.im) + (f1.re - f3.re)⟩
    (o.o0 = wrap16c t.y0 ∧ o.o1 = wrap16c t.y1 ∧ o.o2 = wrap16c t.y2 ∧ o.o3 = wrap16c t.y3) ∧
    o.o0 = ⟨(f0.re + f2.re) + (f1.re + f3.re), (f0.im + f2.im) + (f1.im + f3.im)⟩ ∧
    o.o2 = ⟨(f0.re + f2.re) - (f1.re + f3.re), (f0.im + f2.im) - (f1.im + f3.im)⟩ ∧
    (dir = .forward → o.o1 = up ∧ o.o3 = down) ∧ (dir = .inverse → o.o1 = down ∧ o.o3 = up)

/-- R143: the ranges inside one butterfly, for arbitrary samples and arbitrary twiddles. The ranges of the exact and of the
rounded products are those of a prescaled component times a 16-bit twiddle component. -/
def Obligations.ButterflyRanges : Prop :=
  (∀ (dir : Dir) (x0 x1 x2 x3 w1 w2 w3 : Sample),
    let t := bflyTree dir x0 x1 x2 x3 w1 w2 w3
    WithinBound 8192 t.p0 ∧ WithinBound 8192 t.p1 ∧ WithinBound 8192 t.p2 ∧ WithinBound 8192 t.p3 ∧
    WithinBound 8192 t.f0 ∧ WithinBound 16384 t.f1 ∧ WithinBound 16384 t.f2 ∧ WithinBound 16384 t.f3 ∧
    WithinBound 24576 t.s0 ∧ WithinBound 24576 t.d0 ∧ WithinBound 32768 t.s1 ∧ WithinBound 32768 t.d1 ∧
    WithinBound 57344 t.y0 ∧ WithinBound 57344 t.y1 ∧ WithinBound 57344 t.y2 ∧ WithinBound 57344 t.y3) ∧
  ∀ (p : Int) (w : Half), -8192 ≤ p → p ≤ 8192 →
    -(2 ^ 28) ≤ p * w.toInt ∧ p * w.toInt ≤ 2 ^ 28 ∧ -8192 ≤ rq15 (p * w.toInt) ∧ rq15 (p * w.toInt) ≤ 8192

/-- R133 (its equivalent form), R126, R128: output `p` of a butterfly is the wrapped sum over `r` of `c^(r*p) * F_r`, with
`c = -i` for `FORWARD` and `c = +i` for `INVERSE`, where `F0 .. F3` are the prescaled samples at the offsets
`0, 2m, m, 3m`, the last three multiplied by `w1, w2, w3`. -/
def Obligations.ButterflyIsFourPointTransform : Prop :=
  ∀ (dir : Dir) (x0 x1 x2 x3 w1 w2 w3 : Sample),
    let o := bfly dir x0 x1 x2 x3 w1 w2 w3
    let c : Wide → Wide := match dir with
      | .forward => rotm
      | .inverse => rotp
    let f0 := q4c x0
    let f1 := cmul (q4c x2) w1
    let f2 := cmul (q4c x1) w2
    let f3 := cmul (q4c x3) w3
    let y : Nat → Sample := fun p =>
      wrap16c (wadd (wadd (wadd (c^[0] f0) (c^[1 * p] f1)) (c^[2 * p] f2)) (c^[3 * p] f3))
    o.o0 = y 0 ∧ o.o1 = y 1 ∧ o.o2 = y 2 ∧ o.o3 = y 3

/-- R212: if every component entering a butterfly has magnitude at most 18725, no output wraps, whatever the table
holds. -/
def Obligations.ModerateInputsNeverWrap : Prop :=
  ∀ (dir : Dir) (x0 x1 x2 x3 w1 w2 w3 : Sample), SampleWithin 18725 x0 → SampleWithin 18725 x1 →
    SampleWithin 18725 x2 → SampleWithin 18725 x3 →
    let t := bflyTree dir x0 x1 x2 x3 w1 w2 w3
    let o := bfly dir x0 x1 x2 x3 w1 w2 w3
    StoredExactly o.o0 t.y0 ∧ StoredExactly o.o1 t.y1 ∧ StoredExactly o.o2 t.y2 ∧ StoredExactly o.o3 t.y3

/-! ### The bit-reversal network (40_reorder.md) -/

/-- R100: `bitrev(i, n)` is below `2^n`, and bit `b` of `i` becomes bit `n-1-b` of the result. -/
def Obligations.BitrevReadsBitsBackwards : Prop :=
  ∀ i n : Nat, i < 2 ^ n → bitrev i n < 2 ^ n ∧ ∀ b, b < n → (bitrev i n).testBit (n - 1 - b) = i.testBit b

/-- R105: (a) the index map is an involution; (b) it stays below `2^n`, and `reorder` is a permutation of the samples;
(c) `reorder` applied twice restores the sequence; (d) the fixed points are the indices whose `n`-bit form is a palindrome,
index 0 and index `2^n - 1` among them; (e) the sample of source slot `j` goes to slot `bitrev(j, n)`. -/
def Obligations.BitReversalAndReorderAreInvolutions : Prop :=
  (∀ i n : Nat, i < 2 ^ n → bitrev i n < 2 ^ n ∧ bitrev (bitrev i n) n = i ∧
    (bitrev i n = i ↔ ∀ b, b < n → i.testBit b = i.testBit (n - 1 - b))) ∧
  (∀ n : Nat, bitrev 0 n = 0 ∧ bitrev (2 ^ n - 1) n = 2 ^ n - 1) ∧
  ∀ (c : Config) (buf : List Sample), buf.length = c.N →
    (reorder c buf).Perm buf ∧ reorder c (reorder c buf) = buf ∧
      ∀ j, j < c.N → sampleAt (reorder c buf) (bitrev j (2 * c.K)) = sampleAt buf j

/-- R101: computed on a machine word of any width `W >= n` and shifted right by `W - n`, the map is the same. -/
def Obligations.NativeWidthDoesNotAffectBitrev : Prop :=
  ∀ i n W : Nat, n ≤ W → i < 2 ^ n → bitrev i W / 2 ^ (W - n) = bitrev i n

/-- R104: the `N` copies done one after another in any order that does each of them once give `reorder`, whatever the
destination held. -/
def Obligations.CopiesMayBeDoneInAnyOrder : Prop :=
  ∀ (c : Config) (order : List Nat) (src dst : List Sample), order.Perm (List.range c.N) → dst.length = c.N →
    copyInOrder c order src dst = reorder c src

/-- R106, R103: under its preconditions `REORDER` is accepted (`BUSY` = 1, `SEQ.phase = REORDER`, `SEQ.chain = 0`, nothing
else changed but the fields of `SEQ` the rule does not use, log 5); run whole it answers a next state: it has completed,
`DST[i] = SRC[bitrev(i, 2K)]` for every entry, whole and unchanged, and nothing else is changed. -/
def Obligations.ReorderCompletesWithBitReversedCopy : Prop :=
  ∀ (s : State) (buf : List Sample), s.status.busy = false → Mem.buffer? s.src s.cfg.N = some buf →
    (∃ a, accept .reorder s = .next a ∧ Accepted s a ∧ a.seq.phase = .reorder ∧ a.seq.chain = false) ∧
    ∃ t, exec .reorder s = .next t ∧ Completed t ∧ CommandFrame s t ∧
      DstBecomes s t ((List.range s.cfg.N).map fun i => sampleAt buf (bitrev i (2 * s.cfg.K)))

/-! ### The layer (41_butterfly.md) -/

/-- R136: for legal operands every sample index is inside the buffer, the largest is `N - 1`, and every twiddle index is
inside the table. -/
def Obligations.LayerIndicesStayInsideTheirSpaces : Prop :=
  ∀ (c : Config) (tws stride groups : Nat), strideOk stride = true → groupsOk c stride groups = true →
    (∀ g k q, g < groups → k < stride / 4 → q < 4 → sampleIndex (stride / 4) g k q ≤ c.N - 1) ∧
    sampleIndex (stride / 4) (groups - 1) (stride / 4 - 1) 3 = c.N - 1 ∧
    (reachOk c tws (stride / 4) = true → ∀ k j, k < stride / 4 → j ≤ 3 → tws + j * k < c.twlen)

/-- R138: the map `(g, k, q) -> g*4*m + q*m + k` is a bijection onto `0 .. N-1`, so every sample index belongs to exactly
one butterfly of the layer; and the butterflies done in place one after another, in any order that does each of them once,
give the layer. -/
def Obligations.ButterfliesMayBeDoneInAnyOrder : Prop :=
  (∀ (m groups n : Nat), 1 ≤ m → groups * (4 * m) = n →
    (∀ g k q, g < groups → k < m → q < 4 →
      sampleIndex m g k q = g * 4 * m + q * m + k ∧ sampleIndex m g k q < n) ∧
    ∀ i, i < n → ∃! p : Nat × Nat × Nat, p.1 < groups ∧ p.2.1 < m ∧ p.2.2 < 4 ∧
      sampleIndex m p.1 p.2.1 p.2.2 = i) ∧
  ∀ (c : Config) (buf : List Sample) (tws stride groups : Nat) (order : List (Nat × Nat)),
    strideOk stride = true → groupsOk c stride groups = true → buf.length = c.N →
    order.Perm (layerWork (stride / 4) groups) →
    layerInOrder c tws (stride / 4) order buf = layer c buf tws stride groups

/-- R137, R134: a layer performs `groups * m = N/4` butterflies; after it the four samples of the butterfly at position `k`
of group `g`, at `g*stride + k + q*m`, are the outputs of `bfly` on the four samples the buffer held BEFORE the layer, with
the twiddles `TW[tws+k]`, `TW[tws+2k]`, `TW[tws+3k]`, which depend on `k` only. -/
def Obligations.LayerAppliesEachButterflyOnce : Prop :=
  ∀ (c : Config) (buf : List Sample) (tws stride groups : Nat),
    strideOk stride = true → groupsOk c stride groups = true → buf.length = c.N →
    (layerWork (stride / 4) groups).length = groups * (stride / 4) ∧ groups * (stride / 4) = c.N / 4 ∧
    (layer c buf tws stride groups).length = c.N ∧
    ∀ g k, g < groups → k < stride / 4 →
      let m := stride / 4
      let i0 := g * stride + k
      let o := bfly c.dir (sampleAt buf i0) (sampleAt buf (i0 + m)) (sampleAt buf (i0 + 2 * m))
        (sampleAt buf (i0 + 3 * m)) (sampleAt c.tw (tws + k)) (sampleAt c.tw (tws + 2 * k))
        (sampleAt c.tw (tws + 3 * k))
      let out := layer c buf tws stride groups
      sampleAt out i0 = o.o0 ∧ sampleAt out (i0 + m) = o.o1 ∧
        sampleAt out (i0 + 2 * m) = o.o2 ∧ sampleAt out (i0 + 3 * m) = o.o3

/-- R141: `RUNLAYER` is run exactly when (a) to (e) hold, and a refusal records the reason of one that fails; (b) and (c)
together make the stride a power of two from 4 to `N`. The sum of (d) is formed in mathematical integers. -/
def Obligations.RunlayerRunsExactlyOnLegalOperands : Prop :=
  ∀ s : State,
    ((∃ t, exec .runlayer s = .next t) ↔
      s.status.busy = false ∧ (4 ≤ s.arg1.toNat ∧ s.arg1.toNat % 4 = 0) ∧ s.arg2.toNat * s.arg1.toNat = s.cfg.N ∧
        s.arg0.toNat + 3 * (s.arg1.toNat / 4 - 1) < s.cfg.twlen ∧ Mem.allWritten s.dst s.cfg.N = true) ∧
    (∀ r, exec .runlayer s = .refused r →
      (r = .busyWrite ∧ s.status.busy = true) ∨
      (r = .badOperand ∧ ¬(4 ≤ s.arg1.toNat ∧ s.arg1.toNat % 4 = 0)) ∨
      (r = .badOperand ∧ s.arg2.toNat * s.arg1.toNat ≠ s.cfg.N) ∨
      (r = .badIndex ∧ s.cfg.twlen ≤ s.arg0.toNat + 3 * (s.arg1.toNat / 4 - 1)) ∨
      (r = .unwrittenSample ∧ Mem.allWritten s.dst s.cfg.N = false)) ∧
    (4 ≤ s.arg1.toNat → s.arg1.toNat % 4 = 0 → s.arg2.toNat * s.arg1.toNat = s.cfg.N →
      ∃ e, 2 ≤ e ∧ e ≤ 2 * s.cfg.K ∧ s.arg1.toNat = 2 ^ e)

/-- R140: under its preconditions `RUNLAYER` is accepted (`BUSY` = 1, `SEQ = (LAYER, 0, -, stride/4, tws)`, nothing else
changed; the field `i` is log 5); run whole it answers a next state: it has completed, `DST` holds
`layer(DST, ARG0, ARG1, ARG2)`, the three registers read as full unsigned words, and nothing else is changed, the operand
registers included. -/
def Obligations.RunlayerCompletesWithLayerOfDst : Prop :=
  ∀ (s : State) (buf : List Sample), s.status.busy = false → 4 ≤ s.arg1.toNat → s.arg1.toNat % 4 = 0 →
    s.arg2.toNat * s.arg1.toNat = s.cfg.N → s.arg0.toNat + 3 * (s.arg1.toNat / 4 - 1) < s.cfg.twlen →
    Mem.buffer? s.dst s.cfg.N = some buf →
    (∃ a, accept .runlayer s = .next a ∧ Accepted s a ∧ a.seq.phase = .layer ∧ a.seq.chain = false ∧
      a.seq.m = s.arg1.toNat / 4 ∧ a.seq.tws = s.arg0) ∧
    ∃ t, exec .runlayer s = .next t ∧ Completed t ∧ CommandFrame s t ∧
      DstBecomes s t (layer s.cfg buf s.arg0.toNat s.arg1.toNat s.arg2.toNat)

/-! ### The orchestrator (42_orchestrator.md) -/

/-- R164: the loop of `transform` runs exactly `K` times; iteration `l` has stride `4^(l+1)`, `4^(K-1-l)` groups and the
twiddle start `SCHED[l]`. More fuel changes nothing. -/
def Obligations.TransformIsExactlyKLayers : Prop :=
  ∀ (c : Config) (src : List Sample) (fuel : Nat), 1 ≤ c.K → c.K ≤ fuel →
    transformLoop c fuel 0 1 (reorder c src) = bufferAfter c src c.K ∧ transform c src = bufferAfter c src c.K

/-- R161, R162, R163: `TRANSFORM` is accepted with `SEQ = (REORDER, 1, 0, 1, -)`; after the reorder and `l` layers (`l < K`)
the block is busy, `SEQ = (LAYER, 1, l, 4^l, SCHED[l])`, `DST` holds the buffer after `l` layers, and the rest is
unchanged; after the last layer, where `4*m = N`, the command completes. -/
def Obligations.TransformPassesThroughItsPhases : Prop :=
  ∀ (s : State) (buf : List Sample), s.status.busy = false → s.cfg.cfgOk = true →
    Mem.buffer? s.src s.cfg.N = some buf →
    ∃ a, accept .transform s = .next a ∧ Accepted s a ∧
      a.seq.phase = .reorder ∧ a.seq.chain = true ∧ a.seq.i = 0 ∧ a.seq.m = 1 ∧
      (∀ l, l < s.cfg.K →
        ∃ t w, runPhases (l + 1) a = .next t ∧ t.status = ⟨true, false⟩ ∧
          s.cfg.sched[l]? = some w ∧ t.seq = ⟨.layer, true, l, 4 ^ l, w⟩ ∧
          DstBecomes s t (bufferAfter s.cfg buf l) ∧ CommandFrame s t) ∧
      ∃ u, runPhases (s.cfg.K + 1) a = .next u ∧ Completed u ∧
        DstBecomes s u (bufferAfter s.cfg buf s.cfg.K) ∧ CommandFrame s u

/-- R165, R160, R167: under its preconditions `TRANSFORM` answers a next state; it has completed, `DST` holds
`transform(SRC)`, and nothing else is changed. -/
def Obligations.TransformCompletesWithTransformOfSrc : Prop :=
  ∀ (s : State) (buf : List Sample), s.status.busy = false → s.cfg.cfgOk = true →
    Mem.buffer? s.src s.cfg.N = some buf →
    ∃ t, exec .transform s = .next t ∧ Completed t ∧ CommandFrame s t ∧ DstBecomes s t (transform s.cfg buf)

/-- R166: the program `TRANSFORM; WAIT` and the chain `REORDER; WAIT; RUNLAYER SCHED[0], 4, N/4; WAIT; ...` both run to
their end and leave the same `DST`, the same `SRC` and the same `STATUS`; the first leaves the operand registers alone, the
second leaves them at `SCHED[K-1], N, 1`. It holds whether commands are run whole or phase by phase (log 3). -/
def Obligations.TransformEqualsChainOfCommands : Prop :=
  ∀ (s : State), s.status.busy = false → s.cfg.cfgOk = true → s.cfg.regBase % 4 = 0 →
    Mem.allWritten s.src s.cfg.N = true →
    ∃ n k t u, runSteps n (s.load [.transform, .wait]) = .next t ∧ t.pending = s.pending ∧
      runSteps k (s.load (chainProgram s.cfg)) = .next u ∧ u.pending = s.pending ∧
      (∀ i, Mem.get? t.dst i = Mem.get? u.dst i) ∧ t.src = s.src ∧ u.src = s.src ∧
      t.status = ⟨false, true⟩ ∧ u.status = ⟨false, true⟩ ∧
      t.arg0 = s.arg0 ∧ t.arg1 = s.arg1 ∧ t.arg2 = s.arg2 ∧
      u.arg0.toNat = schedAt s.cfg (s.cfg.K - 1) ∧ u.arg1.toNat = s.cfg.N ∧ u.arg2.toNat = 1

/-- R12, R168 (c): what a `TRANSFORM` leaves in `DST` depends on the build and `SRC` alone. Two idle states that agree
on those, whatever else differs (old `DST`, operand registers, `DONE`, `SEQ`), get the same entries. -/
def Obligations.TransformDependsOnSrcAlone : Prop :=
  ∀ s s' t t' : State, s.cfg = s'.cfg → (∀ i, i < s.cfg.N → Mem.get? s.src i = Mem.get? s'.src i) →
    exec .transform s = .next t → exec .transform s' = .next t' →
    ∀ i, i < s.cfg.N → Mem.get? t.dst i = Mem.get? t'.dst i

/-- R170: `WARMUP` has no precondition but `BUSY` = 0; it completes in the step that accepts it; its only effect is
`DONE <- 1`; and no result of any command depends on whether it was issued before: every command does after a `WARMUP`
exactly what it would have done without it. -/
def Obligations.WarmupOnlySetsDone : Prop :=
  ∀ s : State,
    (s.status.busy = false → exec .warmup s = .next { s with status := ⟨false, true⟩ } ∧
      accept .warmup s = .next { s with status := ⟨false, true⟩ }) ∧
    (s.status.busy = true → exec .warmup s = .refused .busyWrite) ∧
    ∀ (i : Instr) (t : State), exec .warmup s = .next t → exec i t = exec i s

/-! ### All commands -/

/-- R107, R167 (and the command rows of R184): a command is run exactly when no reason applies to it, and a refusal records a
reason that applies (which one, when several do, is log 9). `REORDER` asks for nothing but `BUSY` = 0 and a written `SRC`,
`TRANSFORM` for nothing but these and `CfgOK`. -/
def Obligations.CommandRefusedExactlyOnViolation : Prop :=
  (∀ (i : Instr) (s : State),
    ((∃ t, exec i s = .next t) ↔ ∀ r, commandViolation i s r = false) ∧
      ∀ r, exec i s = .refused r → commandViolation i s r = true) ∧
  ∀ s : State,
    ((∃ t, exec .reorder s = .next t) ↔ s.status.busy = false ∧ Mem.allWritten s.src s.cfg.N = true) ∧
    (∀ r, exec .reorder s = .refused r → (r = .busyWrite ∧ s.status.busy = true) ∨
      (r = .unwrittenSample ∧ Mem.allWritten s.src s.cfg.N = false)) ∧
    ((∃ t, exec .transform s = .next t) ↔
      s.status.busy = false ∧ Mem.allWritten s.src s.cfg.N = true ∧ s.cfg.cfgOk = true) ∧
    (∀ r, exec .transform s = .refused r → (r = .busyWrite ∧ s.status.busy = true) ∨
      (r = .unwrittenSample ∧ Mem.allWritten s.src s.cfg.N = false) ∨ (r = .badConfig ∧ s.cfg.cfgOk = false))

/-- R84: acceptance as a step of its own. Under the contract `DONE <- 0`, `BUSY <- 1` and `SEQ` as the command's rule says
(the fields written `-` are log 5); `WARMUP` completes at once; nothing else changes. Outside the contract the command is
refused with a reason that applies. -/
def Obligations.AcceptanceSetsBusyAndSeq : Prop :=
  ∀ (i : Instr) (s : State),
    ((∃ a, accept i s = .next a) ↔ ∀ r, commandViolation i s r = false) ∧
    (∀ r, accept i s = .refused r → commandViolation i s r = true) ∧
    ∀ a, accept i s = .next a →
      s.status.busy = false ∧ CommandFrame s a ∧ a.dst = s.dst ∧
      (i = .warmup → a.status = ⟨false, true⟩ ∧ a.seq = s.seq) ∧ (i ≠ .warmup → a.status = ⟨true, false⟩) ∧
      (i = .reorder → a.seq.phase = .reorder ∧ a.seq.chain = false) ∧
      (i = .runlayer → a.seq.phase = .layer ∧ a.seq.chain = false ∧ a.seq.m = s.arg1.toNat / 4 ∧ a.seq.tws = s.arg0) ∧
      (i = .transform → a.seq.phase = .reorder ∧ a.seq.chain = true ∧ a.seq.i = 0 ∧ a.seq.m = 1)

/-- R21, R35, R140, R165: no command writes `SRC`, the operand registers or the build, nor an entry of `DST` beyond the
size of the memory; `WARMUP` writes no entry of `DST` at all. -/
def Obligations.CommandsLeaveTheRestUnchanged : Prop :=
  ∀ (i : Instr) (s t : State), exec i s = .next t →
    CommandFrame s t ∧ (∀ k, s.cfg.N ≤ k → Mem.get? t.dst k = Mem.get? s.dst k) ∧
      (i = .warmup → t.dst = s.dst ∧ t.seq = s.seq)

/-- The frame byte by byte: no command changes a byte outside the `DST` window, and `WARMUP` changes none anywhere. -/
def Obligations.CommandsTouchOnlyBytesOfDst : Prop :=
  ∀ (i : Instr) (s t : State) (a : Nat), exec i s = .next t →
    (¬(s.cfg.dstBase ≤ a ∧ a < s.cfg.dstBase + 4 * s.cfg.N) ∨ i = .warmup) → t.byteAt a = s.byteAt a

/-- R11, R213: a command run as acceptance and then phase by phase is idle after `phasesOf` phases, a number that does
not depend on the data (`K + 1` for `TRANSFORM`), and then is in exactly the state that the one-step run answers, which
has completed (`WARMUP` has no phase and leaves `SEQ` alone, R170). It is refused at acceptance exactly when the one-step
run is, with the same reason (where several apply, the order of log 9). -/
def Obligations.PhasesRefineTheAtomicCommand : Prop :=
  ∀ (i : Instr) (s : State),
    (∀ a, accept i s = .next a →
      ∃ t, runPhases (phasesOf s.cfg i) a = .next t ∧ exec i s = .next t ∧ t.status = ⟨false, true⟩ ∧
        (i = .warmup ∨ t.seq.phase = .idle)) ∧
    ∀ r, accept i s = .refused r ↔ exec i s = .refused r

/-! ### Invariants and whole-machine rules -/

/-- R40 (and the first sentence of R41): what reset leaves, for every build: `STATUS = 0`, the operand registers 0,
`SEQ.phase = IDLE`, `CFG` at its hardwired value and 0 where `CMD` is read, every entry of `SRC` and `DST` unwritten. -/
def Obligations.ResetLeavesIdleAndUnwritten : Prop :=
  ∀ c : Config,
    let s := State.resetOf c
    statusWord s.status = 0 ∧ s.arg0 = 0 ∧ s.arg1 = 0 ∧ s.arg2 = 0 ∧ s.seq.phase = .idle ∧ s.cfg = c ∧
      readTarget .cfg s = .next (s.give (cfgWord c)) ∧ readTarget .cmd s = .next (s.give 0) ∧
      ∀ i, Mem.get? s.src i = none ∧ Mem.get? s.dst i = none

/-- The invariant holds at reset, for every build and for the one `State.reset` stands for. -/
def Obligations.ResetMeetsTheInvariant : Prop :=
  (∀ c : Config, MachineInv (State.resetOf c)) ∧ MachineInv State.reset

/-- R25, R30, R31, R34: every step keeps the invariant: `BUSY` is 1 exactly when `SEQ.phase` is not `IDLE`, `BUSY` and `DONE`
are never both 1, both memories keep their canonical form and list no entry beyond their size, and while a phase is
running `SEQ` holds the fields of a layer of the running command. -/
def Obligations.EveryStepKeepsTheInvariant : Prop :=
  ∀ s t : State, MachineInv s → step s = .next t → MachineInv t

/-- R42, R28, R7: no step changes the build: `K`, `DIR`, `TW`, `SCHED`, and so the word `CFG` reads. -/
def Obligations.BuildNeverChanges : Prop :=
  ∀ s t : State, step s = .next t → t.cfg = s.cfg ∧ cfgWord t.cfg = cfgWord s.cfg

/-- R35, R21, R41: a step changes `SRC` or an operand register only by a host write or a reset; in particular no command and
no phase does. -/
def Obligations.OnlyTheHostWritesSrcAndOperands : Prop :=
  ∀ s t : State, step s = .next t → (∀ a size w rest, s.pending ≠ .write a size w :: rest) →
    (∀ rest, s.pending ≠ .reset :: rest) →
    t.src = s.src ∧ t.arg0 = s.arg0 ∧ t.arg1 = s.arg1 ∧ t.arg2 = s.arg2

/-- R213: the block cannot hang: under the invariant no phase is refused, and a busy block has completed its command after
at most `K + 1` phases. -/
def Obligations.RunningPhaseAlwaysCompletes : Prop :=
  ∀ s : State, MachineInv s →
    (∃ t, advance s = .next t) ∧
      (s.status.busy = true → ∃ n t, n ≤ s.cfg.K + 1 ∧ runPhases n s = .next t ∧ Completed t ∧ CommandFrame s t)

/-! ### The step and the host interface -/

/-- When the next action of the host is a 32-bit write of a command word to `CMD`, the step runs the decoded command: whole
under `Grain.command`, acceptance alone under `Grain.phase` (log 3). The host's action is taken from `pending` first. -/
def Obligations.StepRunsTheDecodedCommand : Prop :=
  ∀ (s : State) (rest : List HostOp) (w : Word) (i : Instr), s.cfg.regBase % 4 = 0 →
    s.pending = .write s.cfg.regBase 4 w :: rest → decode w = .ok i →
    (s.grain = .command → step s = exec i (s.withPending rest)) ∧
      (s.grain = .phase → step s = accept i (s.withPending rest))

/-- R195: with no host action pending an idle block only waits. A busy one completes a phase (log 14). -/
def Obligations.IdleBlockWaits : Prop :=
  ∀ s : State, s.pending = [] → (s.seq.phase = .idle → step s = .next s) ∧ step s = advance s

/-- R25, R28: the fields of the words that `STATUS` and `CFG` read as, for every build with `1 <= K <= 15`. -/
def Obligations.StatusAndCfgFields : Prop :=
  (∀ st : Status, (statusWord st).getLsbD 0 = st.busy ∧ (statusWord st).getLsbD 1 = st.done ∧
    ∀ b, 2 ≤ b → (statusWord st).getLsbD b = false) ∧
  ∀ c : Config, 1 ≤ c.K → c.K ≤ 15 →
    ((cfgWord c).extractLsb' 0 4).toNat = c.K ∧ ((cfgWord c).getLsbD 4 = true ↔ c.dir = .inverse) ∧
      ∀ b, 5 ≤ b → (cfgWord c).getLsbD b = false

/-- R24, R25, R26, R28, R57, R59: what a host read of each register returns; nothing else changes. `STATUS` and `CFG` may
be read at any time. -/
def Obligations.RegisterReadsReturnTheirValues : Prop :=
  ∀ (s : State) (rest : List HostOp), s.cfg.regBase % 4 = 0 →
    (s.pending = .read (s.cfg.regBase + 0x04) 4 :: rest →
      step s = .next { s with pending := rest, rdata := statusWord s.status :: s.rdata }) ∧
    (s.pending = .read (s.cfg.regBase + 0x14) 4 :: rest →
      step s = .next { s with pending := rest, rdata := cfgWord s.cfg :: s.rdata }) ∧
    (s.status.busy = false →
      (s.pending = .read (s.cfg.regBase + 0x00) 4 :: rest →
        step s = .next { s with pending := rest, rdata := 0 :: s.rdata }) ∧
      (s.pending = .read (s.cfg.regBase + 0x08) 4 :: rest →
        step s = .next { s with pending := rest, rdata := s.arg0 :: s.rdata }) ∧
      (s.pending = .read (s.cfg.regBase + 0x0C) 4 :: rest →
        step s = .next { s with pending := rest, rdata := s.arg1 :: s.rdata }) ∧
      (s.pending = .read (s.cfg.regBase + 0x10) 4 :: rest →
        step s = .next { s with pending := rest, rdata := s.arg2 :: s.rdata }))

/-- R59: no host read has a side effect: a read that answers changes only what the host has been given, and the same read
again returns the same word. -/
def Obligations.ReadsHaveNoSideEffect : Prop :=
  ∀ (s t : State) (a size : Nat) (rest : List HostOp),
    s.pending = .read a size :: .read a size :: rest → step s = .next t →
    ∃ w, t = { s with pending := .read a size :: rest, rdata := w :: s.rdata } ∧
      step t = .next { s with pending := rest, rdata := w :: w :: s.rdata }

/-- R26, R59: a host write to an operand register while the block is not busy stores any word, and nothing else changes,
whatever the host does next (`rest`); where it next reads the register, the read returns the word unchanged. -/
def Obligations.OperandRegistersKeepAnyWord : Prop :=
  ∀ (s : State) (rest : List HostOp) (w : Word), s.cfg.regBase % 4 = 0 → s.status.busy = false →
    (s.pending = .write (s.cfg.regBase + 0x08) 4 w :: rest →
      step s = .next { s with arg0 := w, pending := rest }) ∧
    (s.pending = .write (s.cfg.regBase + 0x0C) 4 w :: rest →
      step s = .next { s with arg1 := w, pending := rest }) ∧
    (s.pending = .write (s.cfg.regBase + 0x10) 4 w :: rest →
      step s = .next { s with arg2 := w, pending := rest }) ∧
    (s.pending = .write (s.cfg.regBase + 0x08) 4 w :: .read (s.cfg.regBase + 0x08) 4 :: rest →
      runSteps 2 s = .next { s with arg0 := w, pending := rest, rdata := w :: s.rdata }) ∧
    (s.pending = .write (s.cfg.regBase + 0x0C) 4 w :: .read (s.cfg.regBase + 0x0C) 4 :: rest →
      runSteps 2 s = .next { s with arg1 := w, pending := rest, rdata := w :: s.rdata }) ∧
    (s.pending = .write (s.cfg.regBase + 0x10) 4 w :: .read (s.cfg.regBase + 0x10) 4 :: rest →
      runSteps 2 s = .next { s with arg2 := w, pending := rest, rdata := w :: s.rdata })

/-- R54, R59: a host write to entry `i` of `SRC` stores `unpack(w)` there and changes nothing else, whatever the host does
next (`rest`); where it next reads the entry, the read returns `w`; a host read of a written entry returns its packed word.
The same for `DST`. -/
def Obligations.HostWindowsHoldWholeSamples : Prop :=
  ∀ (s : State) (rest : List HostOp) (w : Word) (x : Sample) (i : Nat), s.cfg.mapOk = true →
    s.status.busy = false → i < s.cfg.N →
    (s.pending = .write (s.cfg.srcBase + 4 * i) 4 w :: rest →
      ∃ m, step s = .next { s with src := m, pending := rest } ∧
        Mem.get? m i = some (unpack w) ∧ ∀ k, k ≠ i → Mem.get? m k = Mem.get? s.src k) ∧
    (s.pending = .write (s.cfg.dstBase + 4 * i) 4 w :: rest →
      ∃ m, step s = .next { s with dst := m, pending := rest } ∧
        Mem.get? m i = some (unpack w) ∧ ∀ k, k ≠ i → Mem.get? m k = Mem.get? s.dst k) ∧
    (s.pending = .write (s.cfg.srcBase + 4 * i) 4 w :: .read (s.cfg.srcBase + 4 * i) 4 :: rest →
      ∃ m, runSteps 2 s = .next { s with src := m, pending := rest, rdata := w :: s.rdata } ∧
        Mem.get? m i = some (unpack w) ∧ ∀ k, k ≠ i → Mem.get? m k = Mem.get? s.src k) ∧
    (s.pending = .write (s.cfg.dstBase + 4 * i) 4 w :: .read (s.cfg.dstBase + 4 * i) 4 :: rest →
      ∃ m, runSteps 2 s = .next { s with dst := m, pending := rest, rdata := w :: s.rdata } ∧
        Mem.get? m i = some (unpack w) ∧ ∀ k, k ≠ i → Mem.get? m k = Mem.get? s.dst k) ∧
    (Mem.get? s.src i = some x → s.pending = .read (s.cfg.srcBase + 4 * i) 4 :: rest →
      step s = .next { s with pending := rest, rdata := pack x :: s.rdata }) ∧
    (Mem.get? s.dst i = some x → s.pending = .read (s.cfg.dstBase + 4 * i) 4 :: rest →
      step s = .next { s with pending := rest, rdata := pack x :: s.rdata })

/-- R25, R28: a host write to `STATUS` or `CFG` while the block is not busy is ignored. -/
def Obligations.ReadOnlyRegistersIgnoreWrites : Prop :=
  ∀ (s : State) (rest : List HostOp) (w : Word), s.cfg.regBase % 4 = 0 → s.status.busy = false →
    (s.pending = .write (s.cfg.regBase + 0x04) 4 w :: rest ∨ s.pending = .write (s.cfg.regBase + 0x14) 4 w :: rest) →
    step s = .next (s.withPending rest)

/-- R62 and R25: while `BUSY` = 1 a host access to `SRC` or `DST` and a host read of `CMD` or `ARG0..2` is refused as
`BusyAccess`, a host write of `CMD`, `ARG0..2`, `STATUS` or `CFG` as `BusyWrite`; `STATUS` and `CFG` may be read. While
`BUSY` = 0 the block does nothing on its own. Two things here are the model's choice: the reason for a write of `STATUS` or
`CFG` (log 8); and, where a second reason of R184 applies to the access as well (a reserved word or a command that fails its
preconditions written to `CMD`, an unwritten entry read), that the busy reason is the one recorded (the test order of
log 9). -/
def Obligations.BusyBlockOwnsMemoriesAndOperands : Prop :=
  (∀ (s : State) (rest : List HostOp) (a : Nat) (w : Word), s.status.busy = true → a % 4 = 0 →
    ((∃ i, targetAt s.cfg a = some (.src i)) ∨ (∃ i, targetAt s.cfg a = some (.dst i)) →
      (s.pending = .read a 4 :: rest → step s = .refused .busyAccess) ∧
      (s.pending = .write a 4 w :: rest → step s = .refused .busyAccess)) ∧
    (targetAt s.cfg a = some .cmd ∨ targetAt s.cfg a = some .arg0 ∨ targetAt s.cfg a = some .arg1 ∨
        targetAt s.cfg a = some .arg2 →
      (s.pending = .read a 4 :: rest → step s = .refused .busyAccess) ∧
      (s.pending = .write a 4 w :: rest → step s = .refused .busyWrite)) ∧
    (targetAt s.cfg a = some .status ∨ targetAt s.cfg a = some .cfg →
      (s.pending = .read a 4 :: rest →
        ∃ v, step s = .next { s with pending := rest, rdata := v :: s.rdata }) ∧
      (s.pending = .write a 4 w :: rest → step s = .refused .busyWrite))) ∧
  ∀ s : State, MachineInv s → s.status.busy = false → advance s = .next s

/-- R55, R29: an access that is not a 32-bit access at a multiple of 4 is refused as `BadAccess`; a legal one outside the
three windows, or at a register offset of 0x18 or above outside the other two, as `BadAddress`. Two things here are the
model's choice: where an access of the first kind has a second reason of R184 (it is outside the windows, or the block is
busy), that `BadAccess` is the one recorded (the test order of log 9); and that an access reaches the block whatever its
address (log 10). -/
def Obligations.IllegalAccessesAreRefused : Prop :=
  ∀ (s : State) (rest : List HostOp) (a size : Nat) (w : Word),
    (s.pending = .read a size :: rest ∨ s.pending = .write a size w :: rest) →
    (size ≠ 4 ∨ a % 4 ≠ 0 → step s = .refused .badAccess) ∧
    (size = 4 → a % 4 = 0 → ¬(s.cfg.regBase ≤ a ∧ a < s.cfg.regBase + 0x18) →
      ¬(s.cfg.srcBase ≤ a ∧ a < s.cfg.srcBase + 4 * s.cfg.N) →
      ¬(s.cfg.dstBase ≤ a ∧ a < s.cfg.dstBase + 4 * s.cfg.N) → step s = .refused .badAddress)

/-- R85: a write to `CMD` of a word with bits [31:2] not all 0 while the block is not busy is refused as
`ReservedCommand`. -/
def Obligations.ReservedCommandWordsAreRefused : Prop :=
  ∀ (s : State) (rest : List HostOp) (w : Word), s.cfg.regBase % 4 = 0 → s.status.busy = false →
    4 ≤ w.toNat → s.pending = .write s.cfg.regBase 4 w :: rest → step s = .refused .reservedCommand

/-- R41: a host read of an entry that nothing has written since reset is refused as `UnwrittenSample`; after reset that is
every entry. -/
def Obligations.UnwrittenSamplesAreNeverRead : Prop :=
  (∀ (s : State) (rest : List HostOp) (i : Nat), s.cfg.mapOk = true → s.status.busy = false → i < s.cfg.N →
    (Mem.get? s.src i = none → s.pending = .read (s.cfg.srcBase + 4 * i) 4 :: rest →
      step s = .refused .unwrittenSample) ∧
    (Mem.get? s.dst i = none → s.pending = .read (s.cfg.dstBase + 4 * i) 4 :: rest →
      step s = .refused .unwrittenSample)) ∧
  ∀ (c : Config) (rest : List HostOp) (i : Nat), c.mapOk = true → i < c.N →
    step ((State.resetOf c).withPending (.read (c.srcBase + 4 * i) 4 :: rest)) = .refused .unwrittenSample ∧
    step ((State.resetOf c).withPending (.read (c.dstBase + 4 * i) 4 :: rest)) = .refused .unwrittenSample

/-- R200, R201: `RESET` in any state, also while a command runs, leaves the reset state of the same build; the host's own
record (`pending` after this action, `rdata`, `result`, `grain`) is not the block's and stays (log 12). -/
def Obligations.ResetAbandonsARunningCommand : Prop :=
  ∀ (s : State) (rest : List HostOp), s.pending = .reset :: rest →
    ∃ t, step s = .next t ∧ t.cfg = s.cfg ∧ t.status = ⟨false, false⟩ ∧ t.arg0 = 0 ∧ t.arg1 = 0 ∧ t.arg2 = 0 ∧
      t.seq.phase = .idle ∧ (∀ i, Mem.get? t.src i = none ∧ Mem.get? t.dst i = none) ∧
      t.pending = rest ∧ t.rdata = s.rdata ∧ t.result = s.result ∧ t.grain = s.grain

/-- R88, R213: `WAIT` ends after finitely many reads of `STATUS`, at most `K + 2`; then the block is not busy, and the last
word read has bit 0 equal to 0. (How many reads there are is the model's, log 15.) -/
def Obligations.WaitAlwaysEnds : Prop :=
  ∀ (s : State) (rest : List HostOp), MachineInv s → s.pending = .wait :: rest →
    ∃ n t w, n ≤ s.cfg.K + 2 ∧ runSteps n s = .next t ∧ t.pending = rest ∧ t.status.busy = false ∧
      t.rdata.head? = some w ∧ w.getLsbD 0 = false

/-- R184, R183: for every action of the host, in every state that meets the invariant: the step answers a next state exactly
when no reason of the table applies, and a refusal records a reason that applies. -/
def Obligations.HostActionRefusedExactlyOnViolation : Prop :=
  ∀ (s : State) (op : HostOp) (rest : List HostOp), MachineInv s → s.pending = op :: rest →
    ((∃ t, step s = .next t) ↔ ∀ r, hostViolation op s r = false) ∧
      ∀ r, step s = .refused r → hostViolation op s r = true

/-- R88: `GETSRC` and `GETDST` are an aligned 32-bit host read, after which the program's result lists `unpack` of the word
read: the action answers and is refused exactly as that read in its place does, and nothing else changes but what the read
gives the host. Of entry `i` holding `x`, the result lists `x`. (That the result and the words given are lists, newest
first, is log 6.) -/
def Obligations.GetListsTheUnpackedSample : Prop :=
  (∀ (s : State) (rest : List HostOp) (a : Nat), s.pending = .get a :: rest →
    (∀ t, step s = .next t ↔
      ∃ w, step (s.withPending (.read a 4 :: rest)) = .next { s with pending := rest, rdata := w :: s.rdata } ∧
        t = { s with pending := rest, rdata := w :: s.rdata, result := unpack w :: s.result }) ∧
    ∀ r, step s = .refused r ↔ step (s.withPending (.read a 4 :: rest)) = .refused r) ∧
  ∀ (s : State) (rest : List HostOp) (x : Sample) (i : Nat), s.cfg.mapOk = true → s.status.busy = false →
    i < s.cfg.N →
    (Mem.get? s.src i = some x → s.pending = AsmLine.expand s.cfg (.getsrc i) ++ rest →
      step s = .next { s with pending := rest, rdata := pack x :: s.rdata, result := x :: s.result }) ∧
    (Mem.get? s.dst i = some x → s.pending = AsmLine.expand s.cfg (.getdst i) ++ rest →
      step s = .next { s with pending := rest, rdata := pack x :: s.rdata, result := x :: s.result })
end

