-- ==== Sys2Proof/Laws/Memory.lean ====
section
/-!
SUPPORT. The laws of the sample memories: a read after a write, the canonical form, whole buffers.
-/

namespace Sys2Proof.Machine

/-! ### One entry -/

@[simp] theorem Mem.get?_nil (i : Nat) : Mem.get? [] i = none := rfl

theorem Mem.get?_set_same (m : Mem) (i : Nat) (x : Sample) : Mem.get? (Mem.set m i x) i = some x := by
  induction m with
  | nil => simp [Mem.set, Mem.get?]
  | cons e rest ih =>
    obtain ⟨j, y⟩ := e
    unfold Mem.set
    split
    · simp [Mem.get?]
    · split
      · simp [Mem.get?]
      · have : j ≠ i := by omega
        simp [Mem.get?, this, ih]

theorem Mem.get?_set_other (m : Mem) {i k : Nat} (x : Sample) (h : k ≠ i) :
    Mem.get? (Mem.set m i x) k = Mem.get? m k := by
  induction m with
  | nil => simp [Mem.set, Mem.get?, Ne.symm h]
  | cons e rest ih =>
    obtain ⟨j, y⟩ := e
    unfold Mem.set
    split
    · simp [Mem.get?, Ne.symm h]
    · split
      · subst j; simp [Mem.get?, Ne.symm h]
      · simp only [Mem.get?, ih]

theorem Mem.get?_set (m : Mem) (i k : Nat) (x : Sample) :
    Mem.get? (Mem.set m i x) k = if k = i then some x else Mem.get? m k := by
  split
  · next h => subst h; exact Mem.get?_set_same m k x
  · next h => exact Mem.get?_set_other m x h

/-! ### The canonical form -/

/-- The canonical form of a list with a head: every later index is above the head's. -/
theorem Mem.wf_cons_iff (i : Nat) (x : Sample) (rest : Mem) :
    Mem.wf ((i, x) :: rest) = true ↔ (∀ e ∈ rest, i < e.1) ∧ Mem.wf rest = true := by
  induction rest generalizing i x with
  | nil => simp [Mem.wf]
  | cons e rest ih =>
    obtain ⟨j, y⟩ := e
    simp only [Mem.wf, Bool.and_eq_true, decide_eq_true_eq, ih, List.mem_cons, forall_eq_or_imp]
    constructor
    · rintro ⟨hij, hj, hw⟩
      exact ⟨⟨hij, fun e he => lt_trans hij (hj e he)⟩, hj, hw⟩
    · rintro ⟨⟨hij, _⟩, hj, hw⟩
      exact ⟨hij, hj, hw⟩

theorem Mem.mem_set {m : Mem} {i : Nat} {x : Sample} {e : Nat × Sample} (h : e ∈ Mem.set m i x) :
    e = (i, x) ∨ e ∈ m := by
  induction m with
  | nil => simpa [Mem.set] using h
  | cons d rest ih =>
    obtain ⟨j, y⟩ := d
    unfold Mem.set at h
    split at h
    · rcases List.mem_cons.1 h with h | h
      · exact .inl h
      · exact .inr h
    · split at h
      · rcases List.mem_cons.1 h with h | h
        · exact .inl h
        · exact .inr (List.mem_cons_of_mem _ h)
      · rcases List.mem_cons.1 h with h | h
        · exact .inr (h ▸ List.mem_cons_self)
        · rcases ih h with h | h
          · exact .inl h
          · exact .inr (List.mem_cons_of_mem _ h)

theorem Mem.set_wf {m : Mem} (i : Nat) (x : Sample) (h : Mem.wf m = true) : Mem.wf (Mem.set m i x) = true := by
  induction m with
  | nil => rfl
  | cons d rest ih =>
    obtain ⟨j, y⟩ := d
    have hc := (Mem.wf_cons_iff j y rest).1 h
    unfold Mem.set
    split
    · next hij =>
      refine (Mem.wf_cons_iff i x _).2 ⟨fun e he => ?_, h⟩
      rcases List.mem_cons.1 he with rfl | he
      · exact hij
      · exact lt_trans hij (hc.1 e he)
    · split
      · next hij => subst hij; exact (Mem.wf_cons_iff i x rest).2 hc
      · next hlt hne =>
        refine (Mem.wf_cons_iff j y _).2 ⟨fun e he => ?_, ih hc.2⟩
        rcases Mem.mem_set he with rfl | he
        · show j < i
          omega
        · exact hc.1 e he

theorem Mem.below_iff (n : Nat) (m : Mem) : Mem.below n m = true ↔ ∀ e ∈ m, e.1 < n := by
  simp [Mem.below, List.all_eq_true]

theorem Mem.set_below {n : Nat} {m : Mem} {i : Nat} (x : Sample) (hi : i < n) (h : Mem.below n m = true) :
    Mem.below n (Mem.set m i x) = true := by
  rw [Mem.below_iff] at h ⊢
  intro e he
  rcases Mem.mem_set he with rfl | he
  · exact hi
  · exact h e he

/-! ### Whole buffers -/

/-- What reading `n` entries from index `i` on gives, said once: it succeeds exactly when all of them are written. -/
theorem Mem.readFrom_eq_some_iff (m : Mem) (i n : Nat) (buf : List Sample) :
    Mem.readFrom m i n = some buf ↔ buf.length = n ∧ ∀ k, k < n → Mem.get? m (i + k) = some (sampleAt buf k) := by
  induction n generalizing i buf with
  | zero =>
    cases buf <;> simp [Mem.readFrom]
  | succ n ih =>
    constructor
    · intro h
      simp only [Mem.readFrom] at h
      split at h
      · next x xs hx hxs =>
        cases h
        obtain ⟨hl, hk⟩ := (ih (i + 1) xs).1 hxs
        refine ⟨by simp [hl], fun k hk' => ?_⟩
        cases k with
        | zero => simpa [sampleAt] using hx
        | succ k =>
          have := hk k (by omega)
          rw [show i + (k + 1) = i + 1 + k by omega, this]
          simp [sampleAt]
      · cases h
    · rintro ⟨hl, hk⟩
      cases buf with
      | nil => simp at hl
      | cons x xs =>
        have h0 : Mem.get? m i = some x := by simpa [sampleAt] using hk 0 (by omega)
        have hr : Mem.readFrom m (i + 1) n = some xs := by
          refine (ih (i + 1) xs).2 ⟨by simpa using hl, fun k hk' => ?_⟩
          have := hk (k + 1) (by omega)
          rw [show i + 1 + k = i + (k + 1) by omega, this]
          simp [sampleAt]
        simp [Mem.readFrom, h0, hr]

theorem Mem.buffer?_eq_some_iff (m : Mem) (n : Nat) (buf : List Sample) :
    Mem.buffer? m n = some buf ↔ buf.length = n ∧ ∀ k, k < n → Mem.get? m k = some (sampleAt buf k) := by
  simpa [Mem.buffer?] using Mem.readFrom_eq_some_iff m 0 n buf

theorem Mem.allWritten_iff_buffer (m : Mem) (n : Nat) :
    Mem.allWritten m n = true ↔ ∃ buf, Mem.buffer? m n = some buf := by
  simp [Mem.allWritten, Option.isSome_iff_exists]

theorem Mem.get?_writeFrom (m : Mem) (i : Nat) (buf : List Sample) (k : Nat) :
    Mem.get? (Mem.writeFrom m i buf) k =
      if i ≤ k ∧ k < i + buf.length then some (sampleAt buf (k - i)) else Mem.get? m k := by
  induction buf generalizing m i with
  | nil => simp [Mem.writeFrom]
  | cons x xs ih =>
    rw [Mem.writeFrom, ih, Mem.get?_set]
    by_cases hk : k = i
    · subst hk
      simp [sampleAt]
    · by_cases h : i + 1 ≤ k ∧ k < i + 1 + xs.length
      · have h' : i ≤ k ∧ k < i + (x :: xs).length := by simp; omega
        rw [if_pos h, if_pos h', show k - i = (k - (i + 1)) + 1 by omega]
        simp [sampleAt]
      · have h' : ¬(i ≤ k ∧ k < i + (x :: xs).length) := by simp; omega
        rw [if_neg h, if_neg h', if_neg hk]

theorem Mem.get?_store (m : Mem) (buf : List Sample) (k : Nat) :
    Mem.get? (Mem.store m buf) k = if k < buf.length then some (sampleAt buf k) else Mem.get? m k := by
  simp [Mem.store, Mem.get?_writeFrom]

theorem Mem.writeFrom_wf {m : Mem} (i : Nat) (buf : List Sample) (h : Mem.wf m = true) :
    Mem.wf (Mem.writeFrom m i buf) = true := by
  induction buf generalizing m i with
  | nil => exact h
  | cons x xs ih => exact ih (i + 1) (Mem.set_wf i x h)

theorem Mem.store_wf {m : Mem} (buf : List Sample) (h : Mem.wf m = true) : Mem.wf (Mem.store m buf) = true :=
  Mem.writeFrom_wf 0 buf h

theorem Mem.writeFrom_below {n : Nat} {m : Mem} (i : Nat) (buf : List Sample) (hb : i + buf.length ≤ n)
    (h : Mem.below n m = true) : Mem.below n (Mem.writeFrom m i buf) = true := by
  induction buf generalizing m i with
  | nil => exact h
  | cons x xs ih =>
    simp only [List.length_cons] at hb
    exact ih (i + 1) (by omega) (Mem.set_below x (by omega) h)

theorem Mem.store_below {n : Nat} {m : Mem} {buf : List Sample} (hb : buf.length ≤ n)
    (h : Mem.below n m = true) : Mem.below n (Mem.store m buf) = true :=
  Mem.writeFrom_below 0 buf (by omega) h

/-- A stored buffer of the memory's size is what is read back. -/
theorem Mem.buffer?_store (m : Mem) (buf : List Sample) :
    Mem.buffer? (Mem.store m buf) buf.length = some buf := by
  rw [Mem.buffer?_eq_some_iff]
  exact ⟨rfl, fun k hk => by simp [Mem.get?_store, hk]⟩

/-- Two memories in canonical form with the same entries are the same list. -/
theorem Mem.ext_get? {m m' : Mem} (h : Mem.wf m = true) (h' : Mem.wf m' = true)
    (he : ∀ i, Mem.get? m i = Mem.get? m' i) : m = m' := by
  induction m generalizing m' with
  | nil =>
    cases m' with
    | nil => rfl
    | cons e r => obtain ⟨j, y⟩ := e; simpa [Mem.get?] using he j
  | cons e r ih =>
    obtain ⟨j, y⟩ := e
    cases m' with
    | nil => simpa [Mem.get?] using he j
    | cons e' r' =>
      obtain ⟨j', y'⟩ := e'
      have hc := (Mem.wf_cons_iff j y r).1 h
      have hc' := (Mem.wf_cons_iff j' y' r').1 h'
      have none_of_lt : ∀ {m : Mem} {i : Nat}, (∀ e ∈ m, i < e.1) → Mem.get? m i = none := by
        intro m i hm
        induction m with
        | nil => rfl
        | cons d r ih =>
          have : d.1 ≠ i := by have := hm d List.mem_cons_self; omega
          simp [Mem.get?, this, ih fun e he => hm e (List.mem_cons_of_mem _ he)]
      have hjj : j = j' := by
        rcases lt_trichotomy j j' with hlt | heq | hgt
        · have h1 := he j
          rw [none_of_lt (m := (j', y') :: r') (i := j) fun e hm => by
            rcases List.mem_cons.1 hm with rfl | hm
            · exact hlt
            · exact lt_trans hlt (hc'.1 e hm)] at h1
          simp [Mem.get?] at h1
        · exact heq
        · have h1 := he j'
          rw [none_of_lt (m := (j, y) :: r) (i := j') fun e hm => by
            rcases List.mem_cons.1 hm with rfl | hm
            · exact hgt
            · exact lt_trans hgt (hc.1 e hm)] at h1
          simp [Mem.get?] at h1
      subst hjj
      have hy : y = y' := by simpa [Mem.get?] using he j
      subst hy
      congr 1
      refine ih hc.2 hc'.2 fun i => ?_
      by_cases hi : j = i
      · subst hi
        rw [none_of_lt hc.1, none_of_lt hc'.1]
      · simpa [Mem.get?, hi] using he i

end Sys2Proof.Machine
end

