-- ==== Sys2Proof/Laws/State.lean ====
section
/-!
SUPPORT. One lemma for each field of State under each named update, so that no proof unfolds a record update. They are
support, not claims.
-/

namespace Sys2Proof.Machine

/-! ### `State.accept` -/

@[simp] theorem State.accept_cfg (s : State) (q : Seq) : (s.accept q).cfg = s.cfg := rfl
@[simp] theorem State.accept_status (s : State) (q : Seq) : (s.accept q).status = ⟨true, false⟩ := rfl
@[simp] theorem State.accept_arg0 (s : State) (q : Seq) : (s.accept q).arg0 = s.arg0 := rfl
@[simp] theorem State.accept_arg1 (s : State) (q : Seq) : (s.accept q).arg1 = s.arg1 := rfl
@[simp] theorem State.accept_arg2 (s : State) (q : Seq) : (s.accept q).arg2 = s.arg2 := rfl
@[simp] theorem State.accept_seq (s : State) (q : Seq) : (s.accept q).seq = q := rfl
@[simp] theorem State.accept_src (s : State) (q : Seq) : (s.accept q).src = s.src := rfl
@[simp] theorem State.accept_dst (s : State) (q : Seq) : (s.accept q).dst = s.dst := rfl
@[simp] theorem State.accept_grain (s : State) (q : Seq) : (s.accept q).grain = s.grain := rfl
@[simp] theorem State.accept_pending (s : State) (q : Seq) : (s.accept q).pending = s.pending := rfl
@[simp] theorem State.accept_rdata (s : State) (q : Seq) : (s.accept q).rdata = s.rdata := rfl
@[simp] theorem State.accept_result (s : State) (q : Seq) : (s.accept q).result = s.result := rfl

/-! ### `State.complete` -/

@[simp] theorem State.complete_cfg (s : State) : s.complete.cfg = s.cfg := rfl
@[simp] theorem State.complete_status (s : State) : s.complete.status = ⟨false, true⟩ := rfl
@[simp] theorem State.complete_arg0 (s : State) : s.complete.arg0 = s.arg0 := rfl
@[simp] theorem State.complete_arg1 (s : State) : s.complete.arg1 = s.arg1 := rfl
@[simp] theorem State.complete_arg2 (s : State) : s.complete.arg2 = s.arg2 := rfl
@[simp] theorem State.complete_seq (s : State) : s.complete.seq = { s.seq with phase := .idle } := rfl
@[simp] theorem State.complete_src (s : State) : s.complete.src = s.src := rfl
@[simp] theorem State.complete_dst (s : State) : s.complete.dst = s.dst := rfl
@[simp] theorem State.complete_grain (s : State) : s.complete.grain = s.grain := rfl
@[simp] theorem State.complete_pending (s : State) : s.complete.pending = s.pending := rfl
@[simp] theorem State.complete_rdata (s : State) : s.complete.rdata = s.rdata := rfl
@[simp] theorem State.complete_result (s : State) : s.complete.result = s.result := rfl

/-! ### `State.storeDst` -/

@[simp] theorem State.storeDst_cfg (s : State) (buf : List Sample) : (s.storeDst buf).cfg = s.cfg := rfl
@[simp] theorem State.storeDst_status (s : State) (buf : List Sample) : (s.storeDst buf).status = s.status := rfl
@[simp] theorem State.storeDst_arg0 (s : State) (buf : List Sample) : (s.storeDst buf).arg0 = s.arg0 := rfl
@[simp] theorem State.storeDst_arg1 (s : State) (buf : List Sample) : (s.storeDst buf).arg1 = s.arg1 := rfl
@[simp] theorem State.storeDst_arg2 (s : State) (buf : List Sample) : (s.storeDst buf).arg2 = s.arg2 := rfl
@[simp] theorem State.storeDst_seq (s : State) (buf : List Sample) : (s.storeDst buf).seq = s.seq := rfl
@[simp] theorem State.storeDst_src (s : State) (buf : List Sample) : (s.storeDst buf).src = s.src := rfl
@[simp] theorem State.storeDst_dst (s : State) (buf : List Sample) : (s.storeDst buf).dst = Mem.store s.dst buf := rfl
@[simp] theorem State.storeDst_grain (s : State) (buf : List Sample) : (s.storeDst buf).grain = s.grain := rfl
@[simp] theorem State.storeDst_pending (s : State) (buf : List Sample) : (s.storeDst buf).pending = s.pending := rfl
@[simp] theorem State.storeDst_rdata (s : State) (buf : List Sample) : (s.storeDst buf).rdata = s.rdata := rfl
@[simp] theorem State.storeDst_result (s : State) (buf : List Sample) : (s.storeDst buf).result = s.result := rfl

/-! ### `State.toPhase` -/

@[simp] theorem State.toPhase_cfg (s : State) (q : Seq) : (s.toPhase q).cfg = s.cfg := rfl
@[simp] theorem State.toPhase_status (s : State) (q : Seq) : (s.toPhase q).status = s.status := rfl
@[simp] theorem State.toPhase_arg0 (s : State) (q : Seq) : (s.toPhase q).arg0 = s.arg0 := rfl
@[simp] theorem State.toPhase_arg1 (s : State) (q : Seq) : (s.toPhase q).arg1 = s.arg1 := rfl
@[simp] theorem State.toPhase_arg2 (s : State) (q : Seq) : (s.toPhase q).arg2 = s.arg2 := rfl
@[simp] theorem State.toPhase_seq (s : State) (q : Seq) : (s.toPhase q).seq = q := rfl
@[simp] theorem State.toPhase_src (s : State) (q : Seq) : (s.toPhase q).src = s.src := rfl
@[simp] theorem State.toPhase_dst (s : State) (q : Seq) : (s.toPhase q).dst = s.dst := rfl
@[simp] theorem State.toPhase_grain (s : State) (q : Seq) : (s.toPhase q).grain = s.grain := rfl
@[simp] theorem State.toPhase_pending (s : State) (q : Seq) : (s.toPhase q).pending = s.pending := rfl
@[simp] theorem State.toPhase_rdata (s : State) (q : Seq) : (s.toPhase q).rdata = s.rdata := rfl
@[simp] theorem State.toPhase_result (s : State) (q : Seq) : (s.toPhase q).result = s.result := rfl

/-! ### `State.give` -/

@[simp] theorem State.give_cfg (s : State) (w : Word) : (s.give w).cfg = s.cfg := rfl
@[simp] theorem State.give_status (s : State) (w : Word) : (s.give w).status = s.status := rfl
@[simp] theorem State.give_arg0 (s : State) (w : Word) : (s.give w).arg0 = s.arg0 := rfl
@[simp] theorem State.give_arg1 (s : State) (w : Word) : (s.give w).arg1 = s.arg1 := rfl
@[simp] theorem State.give_arg2 (s : State) (w : Word) : (s.give w).arg2 = s.arg2 := rfl
@[simp] theorem State.give_seq (s : State) (w : Word) : (s.give w).seq = s.seq := rfl
@[simp] theorem State.give_src (s : State) (w : Word) : (s.give w).src = s.src := rfl
@[simp] theorem State.give_dst (s : State) (w : Word) : (s.give w).dst = s.dst := rfl
@[simp] theorem State.give_grain (s : State) (w : Word) : (s.give w).grain = s.grain := rfl
@[simp] theorem State.give_pending (s : State) (w : Word) : (s.give w).pending = s.pending := rfl
@[simp] theorem State.give_rdata (s : State) (w : Word) : (s.give w).rdata = w :: s.rdata := rfl
@[simp] theorem State.give_result (s : State) (w : Word) : (s.give w).result = s.result := rfl

/-! ### `State.listRead` -/

/-- What listing does to the state a read has answered: it adds the sample of the word read, and nothing else. -/
@[simp] theorem State.listRead_give (s : State) (w : Word) :
    (s.give w).listRead = { s.give w with result := unpack w :: s.result } := rfl

/-! ### `State.withPending` -/

@[simp] theorem State.withPending_cfg (s : State) (ops : List HostOp) : (s.withPending ops).cfg = s.cfg := rfl
@[simp] theorem State.withPending_status (s : State) (ops : List HostOp) : (s.withPending ops).status = s.status := rfl
@[simp] theorem State.withPending_arg0 (s : State) (ops : List HostOp) : (s.withPending ops).arg0 = s.arg0 := rfl
@[simp] theorem State.withPending_arg1 (s : State) (ops : List HostOp) : (s.withPending ops).arg1 = s.arg1 := rfl
@[simp] theorem State.withPending_arg2 (s : State) (ops : List HostOp) : (s.withPending ops).arg2 = s.arg2 := rfl
@[simp] theorem State.withPending_seq (s : State) (ops : List HostOp) : (s.withPending ops).seq = s.seq := rfl
@[simp] theorem State.withPending_src (s : State) (ops : List HostOp) : (s.withPending ops).src = s.src := rfl
@[simp] theorem State.withPending_dst (s : State) (ops : List HostOp) : (s.withPending ops).dst = s.dst := rfl
@[simp] theorem State.withPending_grain (s : State) (ops : List HostOp) : (s.withPending ops).grain = s.grain := rfl
@[simp] theorem State.withPending_pending (s : State) (ops : List HostOp) : (s.withPending ops).pending = ops := rfl
@[simp] theorem State.withPending_rdata (s : State) (ops : List HostOp) : (s.withPending ops).rdata = s.rdata := rfl
@[simp] theorem State.withPending_result (s : State) (ops : List HostOp) : (s.withPending ops).result = s.result := rfl

/-! ### `State.doReset` -/

@[simp] theorem State.doReset_cfg (s : State) : s.doReset.cfg = s.cfg := rfl
@[simp] theorem State.doReset_status (s : State) : s.doReset.status = ⟨false, false⟩ := rfl
@[simp] theorem State.doReset_arg0 (s : State) : s.doReset.arg0 = 0 := rfl
@[simp] theorem State.doReset_arg1 (s : State) : s.doReset.arg1 = 0 := rfl
@[simp] theorem State.doReset_arg2 (s : State) : s.doReset.arg2 = 0 := rfl
@[simp] theorem State.doReset_seq (s : State) : s.doReset.seq = Seq.reset := rfl
@[simp] theorem State.doReset_src (s : State) : s.doReset.src = [] := rfl
@[simp] theorem State.doReset_dst (s : State) : s.doReset.dst = [] := rfl
@[simp] theorem State.doReset_grain (s : State) : s.doReset.grain = s.grain := rfl
@[simp] theorem State.doReset_pending (s : State) : s.doReset.pending = s.pending := rfl
@[simp] theorem State.doReset_rdata (s : State) : s.doReset.rdata = s.rdata := rfl
@[simp] theorem State.doReset_result (s : State) : s.doReset.result = s.result := rfl

/-! ### `State.resetOf` -/

@[simp] theorem State.resetOf_cfg (c : Config) : (State.resetOf c).cfg = c := rfl
@[simp] theorem State.resetOf_status (c : Config) : (State.resetOf c).status = ⟨false, false⟩ := rfl
@[simp] theorem State.resetOf_arg0 (c : Config) : (State.resetOf c).arg0 = 0 := rfl
@[simp] theorem State.resetOf_arg1 (c : Config) : (State.resetOf c).arg1 = 0 := rfl
@[simp] theorem State.resetOf_arg2 (c : Config) : (State.resetOf c).arg2 = 0 := rfl
@[simp] theorem State.resetOf_seq (c : Config) : (State.resetOf c).seq = Seq.reset := rfl
@[simp] theorem State.resetOf_src (c : Config) : (State.resetOf c).src = [] := rfl
@[simp] theorem State.resetOf_dst (c : Config) : (State.resetOf c).dst = [] := rfl
@[simp] theorem State.resetOf_grain (c : Config) : (State.resetOf c).grain = .command := rfl
@[simp] theorem State.resetOf_pending (c : Config) : (State.resetOf c).pending = [] := rfl
@[simp] theorem State.resetOf_rdata (c : Config) : (State.resetOf c).rdata = [] := rfl
@[simp] theorem State.resetOf_result (c : Config) : (State.resetOf c).result = [] := rfl

@[simp] theorem Status.accepted_eq (st : Status) : st.accepted = ⟨true, false⟩ := rfl
@[simp] theorem Status.completed_eq (st : Status) : st.completed = ⟨false, true⟩ := rfl
@[simp] theorem Status.warmed_busy (st : Status) : st.warmed.busy = st.busy := rfl
@[simp] theorem Status.warmed_done (st : Status) : st.warmed.done = true := rfl
@[simp] theorem Seq.reset_phase : Seq.reset.phase = .idle := rfl

end Sys2Proof.Machine
end

