-- ==== Sys2Proof/Laws/Commands.lean ====
section
/-!
SUPPORT. For each shared operation of the commands, one lemma that says once everything it can do: when it answers a next
state, and which.
-/

namespace Sys2Proof.Machine

/-! ### Sequencing -/

@[simp] theorem andThen_next (s : State) (f : State → Host.Outcome State Fault Refusal) :
    andThen (.next s) f = f s := rfl

@[simp] theorem andThen_refused (r : Refusal) (f : State → Host.Outcome State Fault Refusal) :
    andThen (.refused r) f = .refused r := rfl

/-- A sequence answers a next state exactly when both parts do. -/
theorem andThen_eq_next_iff {o : Host.Outcome State Fault Refusal}
    {f : State → Host.Outcome State Fault Refusal} {t : State} :
    andThen o f = .next t ↔ ∃ s, o = .next s ∧ f s = .next t := by
  cases o with
  | next s => simp
  | fault r => cases r
  | refused r => simp

/-- A sequence is refused exactly when its first part is, or its second after it. -/
theorem andThen_eq_refused_iff {o : Host.Outcome State Fault Refusal}
    {f : State → Host.Outcome State Fault Refusal} {r : Refusal} :
    andThen o f = .refused r ↔ o = .refused r ∨ ∃ s, o = .next s ∧ f s = .refused r := by
  cases o with
  | next s => simp
  | fault r => cases r
  | refused r => simp

/-! ### Lengths -/

@[simp] theorem reorder_length (c : Config) (src : List Sample) : (reorder c src).length = c.N := by
  simp [reorder]

@[simp] theorem copyOne_length (c : Config) (src dst : List Sample) (i : Nat) :
    (copyOne c src dst i).length = dst.length := by
  simp [copyOne]

@[simp] theorem bflyAt_length (c : Config) (tws m : Nat) (buf : List Sample) (gk : Nat × Nat) :
    (bflyAt c tws m buf gk).length = buf.length := by
  simp [bflyAt]

@[simp] theorem layerInOrder_length (c : Config) (tws m : Nat) (order : List (Nat × Nat)) (buf : List Sample) :
    (layerInOrder c tws m order buf).length = buf.length := by
  induction order generalizing buf with
  | nil => rfl
  | cons gk rest ih =>
    show (layerInOrder c tws m rest (bflyAt c tws m buf gk)).length = buf.length
    rw [ih, bflyAt_length]

@[simp] theorem layer_length (c : Config) (buf : List Sample) (tws stride groups : Nat) :
    (layer c buf tws stride groups).length = buf.length := by
  simp [layer]

/-! ### Acceptance -/

/-- `REORDER` is accepted exactly under its preconditions (40_reorder.md R107), and then only `STATUS` and `SEQ` change. -/
theorem acceptReorder_eq_next_iff {s t : State} :
    acceptReorder s = .next t ↔
      s.status.busy = false ∧ Mem.allWritten s.src s.cfg.N = true ∧
        t = s.accept { s.seq with phase := .reorder, chain := false } := by
  unfold acceptReorder
  cases hb : s.status.busy <;> cases hw : Mem.allWritten s.src s.cfg.N <;> simp [eq_comm]

/-- `RUNLAYER` is accepted exactly under its preconditions (41_butterfly.md R141), and then only `STATUS` and `SEQ`
change. -/
theorem acceptRunlayer_eq_next_iff {s t : State} :
    acceptRunlayer s = .next t ↔
      s.status.busy = false ∧ strideOk s.opStride = true ∧ groupsOk s.cfg s.opStride s.opGroups = true ∧
        reachOk s.cfg s.opTws (s.opStride / 4) = true ∧ Mem.allWritten s.dst s.cfg.N = true ∧
        t = s.accept ⟨.layer, false, s.seq.i, s.opStride / 4, s.arg0⟩ := by
  unfold acceptRunlayer
  cases hb : s.status.busy <;> cases h1 : strideOk s.opStride <;> cases h2 : groupsOk s.cfg s.opStride s.opGroups <;>
    cases h3 : reachOk s.cfg s.opTws (s.opStride / 4) <;> cases h4 : Mem.allWritten s.dst s.cfg.N <;> simp [eq_comm]

/-- `TRANSFORM` is accepted exactly under its preconditions (42_orchestrator.md R167), and then only `STATUS` and `SEQ`
change. -/
theorem acceptTransform_eq_next_iff {s t : State} :
    acceptTransform s = .next t ↔
      s.status.busy = false ∧ s.cfg.cfgOk = true ∧ Mem.allWritten s.src s.cfg.N = true ∧
        t = s.accept ⟨.reorder, true, 0, 1, s.seq.tws⟩ := by
  unfold acceptTransform
  cases hb : s.status.busy <;> cases h1 : s.cfg.cfgOk <;> cases h4 : Mem.allWritten s.src s.cfg.N <;> simp [eq_comm]

/-! ### Phases -/

/-- The work of a reorder phase changes `DST` alone (R106). -/
theorem copyPhase_eq_next_iff {s t : State} :
    copyPhase s = .next t ↔
      ∃ buf, Mem.buffer? s.src s.cfg.N = some buf ∧ t = s.storeDst (reorder s.cfg buf) := by
  unfold copyPhase
  cases h : Mem.buffer? s.src s.cfg.N <;> simp [eq_comm]

/-- After the copies: the first layer of a `TRANSFORM`, or completion (R106, R162). -/
theorem afterReorder_eq_next_iff {s t : State} :
    afterReorder s = .next t ↔
      (s.seq.chain = true ∧ ∃ w, s.cfg.sched[0]? = some w ∧ t = s.toPhase ⟨.layer, true, 0, 1, w⟩) ∨
        (s.seq.chain = false ∧ t = s.complete) := by
  unfold afterReorder
  cases hc : s.seq.chain
  · simp [eq_comm]
  · cases h : s.cfg.sched[0]? <;> simp [eq_comm]

/-- The work of a layer phase changes `DST` alone (R140, R163). -/
theorem layerWorkPhase_eq_next_iff {s t : State} :
    layerWorkPhase s = .next t ↔
      reachOk s.cfg s.seq.tws.toNat s.seq.m = true ∧
        ∃ buf, Mem.buffer? s.dst s.cfg.N = some buf ∧
          t = s.storeDst (layer s.cfg buf s.seq.tws.toNat (4 * s.seq.m) (s.cfg.N / (4 * s.seq.m))) := by
  unfold layerWorkPhase
  cases hr : reachOk s.cfg s.seq.tws.toNat s.seq.m
  · simp
  · cases h : Mem.buffer? s.dst s.cfg.N <;> simp [eq_comm]

/-- After a layer: the next layer of a `TRANSFORM`, or completion (R140, R163, R165). -/
theorem afterLayer_eq_next_iff {s t : State} :
    afterLayer s = .next t ↔
      (s.seq.chain = true ∧ 4 * s.seq.m < s.cfg.N ∧
          ∃ w, s.cfg.sched[s.seq.i + 1]? = some w ∧ t = s.toPhase ⟨.layer, true, s.seq.i + 1, 4 * s.seq.m, w⟩) ∨
        (¬(s.seq.chain = true ∧ 4 * s.seq.m < s.cfg.N) ∧ t = s.complete) := by
  unfold afterLayer
  by_cases hc : s.seq.chain = true ∧ 4 * s.seq.m < s.cfg.N
  · have hc' : (s.seq.chain && decide (4 * s.seq.m < s.cfg.N)) = true := by simp [hc.1, hc.2]
    rw [if_pos hc']
    cases h : s.cfg.sched[s.seq.i + 1]? <;> simp [hc.1, hc.2, eq_comm]
  · have hc' : ¬(s.seq.chain && decide (4 * s.seq.m < s.cfg.N)) = true := by simpa using hc
    rw [if_neg hc']
    constructor
    · intro h; cases h; exact .inr ⟨hc, rfl⟩
    · rintro (⟨h1, h2, _⟩ | ⟨_, rfl⟩)
      · exact absurd ⟨h1, h2⟩ hc
      · rfl

/-- One turn of the sequencer, said once: it waits, or it does the work of its phase on `DST` and goes on. -/
theorem advance_eq_next_iff {s t : State} :
    advance s = .next t ↔
      (s.seq.phase = .idle ∧ t = s) ∨
        (s.seq.phase = .reorder ∧ ∃ buf, Mem.buffer? s.src s.cfg.N = some buf ∧
          afterReorder (s.storeDst (reorder s.cfg buf)) = .next t) ∨
        (s.seq.phase = .layer ∧ reachOk s.cfg s.seq.tws.toNat s.seq.m = true ∧
          ∃ buf, Mem.buffer? s.dst s.cfg.N = some buf ∧
            afterLayer (s.storeDst (layer s.cfg buf s.seq.tws.toNat (4 * s.seq.m) (s.cfg.N / (4 * s.seq.m))))
              = .next t) := by
  unfold advance
  cases hp : s.seq.phase with
  | idle =>
    constructor
    · intro h; cases h; exact .inl ⟨rfl, rfl⟩
    · rintro (⟨_, rfl⟩ | ⟨h, _⟩ | ⟨h, _⟩)
      · rfl
      · cases h
      · cases h
  | reorder =>
    simp only [reorderPhase, andThen_eq_next_iff, copyPhase_eq_next_iff]
    constructor
    · rintro ⟨u, ⟨buf, hb, rfl⟩, h⟩
      exact .inr (.inl ⟨trivial, buf, hb, h⟩)
    · rintro (⟨h, _⟩ | ⟨_, buf, hb, h⟩ | ⟨h, _⟩)
      · cases h
      · exact ⟨_, ⟨buf, hb, rfl⟩, h⟩
      · cases h
  | layer =>
    simp only [layerPhase, andThen_eq_next_iff, layerWorkPhase_eq_next_iff]
    constructor
    · rintro ⟨u, ⟨hr, buf, hb, rfl⟩, h⟩
      exact .inr (.inr ⟨trivial, hr, buf, hb, h⟩)
    · rintro (⟨h, _⟩ | ⟨h, _⟩ | ⟨_, hr, buf, hb, h⟩)
      · cases h
      · cases h
      · exact ⟨_, ⟨hr, buf, hb, rfl⟩, h⟩

/-- An idle sequencer waits (60_exceptions.md R195). -/
theorem advance_of_idle {s : State} (h : s.seq.phase = .idle) : advance s = .next s := by
  simp [advance, h]

/-- What no turn of the sequencer changes. -/
theorem advance_keeps {s t : State} (h : advance s = .next t) :
    t.cfg = s.cfg ∧ t.arg0 = s.arg0 ∧ t.arg1 = s.arg1 ∧ t.arg2 = s.arg2 ∧ t.src = s.src ∧ t.grain = s.grain ∧
      t.pending = s.pending ∧ t.rdata = s.rdata ∧ t.result = s.result := by
  rcases advance_eq_next_iff.1 h with ⟨_, rfl⟩ | ⟨_, buf, _, h⟩ | ⟨_, _, buf, _, h⟩
  · simp
  · rcases afterReorder_eq_next_iff.1 h with ⟨_, w, _, rfl⟩ | ⟨_, rfl⟩ <;> simp
  · rcases afterLayer_eq_next_iff.1 h with ⟨_, _, w, _, rfl⟩ | ⟨_, rfl⟩ <;> simp

@[simp] theorem runPhases_zero (s : State) : runPhases 0 s = .next s := rfl

@[simp] theorem runPhases_succ (n : Nat) (s : State) : runPhases (n + 1) s = andThen (advance s) (runPhases n) := rfl

/-- Running on from an idle state changes nothing. -/
theorem runPhases_of_idle {s : State} (h : s.seq.phase = .idle) (n : Nat) : runPhases n s = .next s := by
  induction n with
  | zero => rfl
  | succ n ih => simp [advance_of_idle h, ih]

/-- Phases one after another. -/
theorem runPhases_add (n k : Nat) (s : State) : runPhases (n + k) s = andThen (runPhases n s) (runPhases k) := by
  induction n generalizing s with
  | zero => simp
  | succ n ih =>
    rw [show n + 1 + k = (n + k) + 1 by omega, runPhases_succ, runPhases_succ]
    cases advance s with
    | next t => simpa using ih t
    | fault r => cases r
    | refused r => simp

/-- What no run of the sequencer changes. -/
theorem runPhases_keeps {n : Nat} {s t : State} (h : runPhases n s = .next t) :
    t.cfg = s.cfg ∧ t.arg0 = s.arg0 ∧ t.arg1 = s.arg1 ∧ t.arg2 = s.arg2 ∧ t.src = s.src ∧ t.grain = s.grain ∧
      t.pending = s.pending ∧ t.rdata = s.rdata ∧ t.result = s.result := by
  induction n generalizing s with
  | zero => cases h; simp
  | succ n ih =>
    obtain ⟨u, hu, ht⟩ := andThen_eq_next_iff.1 h
    obtain ⟨a0, a1, a2, a3, a4, a5, a6, a7, a8⟩ := advance_keeps hu
    obtain ⟨b0, b1, b2, b3, b4, b5, b6, b7, b8⟩ := ih ht
    exact ⟨b0.trans a0, b1.trans a1, b2.trans a2, b3.trans a3, b4.trans a4, b5.trans a5, b6.trans a6, b7.trans a7,
      b8.trans a8⟩

/-! ### Commands -/

/-- `WARMUP` completes exactly when the block is not busy (42_orchestrator.md R170). -/
theorem execWarmup_eq_next_iff {s t : State} :
    execWarmup s = .next t ↔ s.status.busy = false ∧ t = { s with status := s.status.warmed } := by
  unfold execWarmup
  cases hb : s.status.busy <;> simp [eq_comm]

end Sys2Proof.Machine
end

