-- ==== Sys2Proof/Laws/Bus.lean ====
section
/-!
SUPPORT. The host interface: what each access can do, said once, and the address map.
-/

namespace Sys2Proof.Machine

/-! ### The address map -/

/-- The six registers are where 10_state.md section 5 puts them. -/
theorem targetAt_reg (c : Config) {o : Nat} (h : o < 0x18) : targetAt c (c.regBase + o) = regAt o := by
  unfold targetAt
  rw [if_pos ⟨by omega, by omega⟩, show c.regBase + o - c.regBase = o by omega]

/-- In a build whose windows are disjoint, `SRC_BASE + 4*i` reaches entry `i` of `SRC`. -/
theorem targetAt_src {c : Config} (h : c.windowsDisjoint = true) {i : Nat} (hi : i < c.N) :
    targetAt c (c.srcBase + 4 * i) = some (.src i) := by
  simp only [Config.windowsDisjoint, windowsApart, Bool.and_eq_true, Bool.or_eq_true, decide_eq_true_eq] at h
  unfold targetAt
  rw [if_neg (by omega), if_pos ⟨by omega, by omega⟩,
    show (c.srcBase + 4 * i - c.srcBase) / 4 = i by omega]

/-- In a build whose windows are disjoint, `DST_BASE + 4*i` reaches entry `i` of `DST`. -/
theorem targetAt_dst {c : Config} (h : c.windowsDisjoint = true) {i : Nat} (hi : i < c.N) :
    targetAt c (c.dstBase + 4 * i) = some (.dst i) := by
  simp only [Config.windowsDisjoint, windowsApart, Bool.and_eq_true, Bool.or_eq_true, decide_eq_true_eq] at h
  unfold targetAt
  rw [if_neg (by omega), if_neg (by omega), if_pos ⟨by omega, by omega⟩,
    show (c.dstBase + 4 * i - c.dstBase) / 4 = i by omega]

/-- No access reaches an entry beyond the size of a memory (10_state.md R34). -/
theorem targetAt_in_bounds {c : Config} {a : Nat} :
    (∀ i, targetAt c a = some (.src i) → i < c.N) ∧ (∀ i, targetAt c a = some (.dst i) → i < c.N) := by
  have reg : ∀ o i, regAt o ≠ some (.src i) ∧ regAt o ≠ some (.dst i) := by
    intro o i
    unfold regAt
    repeat' split
    all_goals simp
  unfold targetAt
  refine ⟨fun i => ?_, fun i => ?_⟩ <;> split <;> intro h
  · exact absurd h (reg _ i).1
  · split at h
    · cases h; omega
    · split at h <;> cases h
  · exact absurd h (reg _ i).2
  · split at h
    · cases h
    · split at h
      · cases h; omega
      · cases h

/-! ### Reads -/

/-- A host read that answers gives the host one word and changes nothing else (20_memory.md R59). -/
theorem readTarget_next {t : Target} {s u : State} (h : readTarget t s = .next u) : ∃ w, u = s.give w := by
  have sample : ∀ (m : Mem) (i : Nat), readSample m i s = .next u → ∃ w, u = s.give w := by
    intro m i h
    unfold readSample at h
    cases hg : Mem.get? m i with
    | none => simp [hg] at h
    | some x => simp only [hg] at h; cases h; exact ⟨_, rfl⟩
  cases t <;> simp only [readTarget] at h
  case status => cases h; exact ⟨_, rfl⟩
  case cfg => cases h; exact ⟨_, rfl⟩
  all_goals
    cases hb : s.status.busy <;> simp only [hb, if_true, if_false, Bool.false_eq_true] at h
  case src.false i => exact sample _ _ h
  case dst.false i => exact sample _ _ h
  all_goals first | (cases h; exact ⟨_, rfl⟩) | cases h

/-- A host read that answers is a legal access (R55) and gives the host one word. -/
theorem busRead_next {a size : Nat} {s u : State} (h : busRead a size s = .next u) :
    accessOk a size = true ∧ ∃ w, u = s.give w := by
  unfold busRead at h
  cases ha : accessOk a size <;> simp only [ha, if_true, if_false, Bool.false_eq_true] at h
  · cases h
  · cases ht : targetAt s.cfg a <;> simp only [ht] at h
    · cases h
    · exact ⟨rfl, readTarget_next h⟩

/-- A `GETSRC` or `GETDST` answers exactly when the read does: the host has got the word, and the program's result lists
its sample (30_encoding.md R88). -/
theorem busGet_eq_next_iff {a : Nat} {s u : State} :
    busGet a s = .next u ↔
      ∃ w, busRead a 4 s = .next (s.give w) ∧ u = { s.give w with result := unpack w :: s.result } := by
  unfold busGet
  rw [andThen_eq_next_iff]
  constructor
  · rintro ⟨t, ht, hu⟩
    obtain ⟨_, w, rfl⟩ := busRead_next ht
    cases hu
    exact ⟨w, ht, rfl⟩
  · rintro ⟨w, hw, rfl⟩
    exact ⟨_, hw, rfl⟩

/-- It is refused exactly when the read is, and with the same reason. -/
theorem busGet_eq_refused_iff {a : Nat} {s : State} {r : Refusal} :
    busGet a s = .refused r ↔ busRead a 4 s = .refused r := by
  unfold busGet
  rw [andThen_eq_refused_iff]
  exact or_iff_left (by rintro ⟨t, _, h⟩; cases h)

/-! ### Writes -/

/-- What a host write that answers can do, said once: issue a command, be ignored, or store one value. -/
theorem writeTarget_next {t : Target} {w : Word} {s u : State} (h : writeTarget t w s = .next u) :
    (t = .cmd ∧ ∃ i, decode w = .ok i ∧ issue i s = .next u) ∨
      (s.status.busy = false ∧
        ((t = .status ∧ u = s) ∨ (t = .cfg ∧ u = s) ∨ (t = .arg0 ∧ u = { s with arg0 := w }) ∨
          (t = .arg1 ∧ u = { s with arg1 := w }) ∨ (t = .arg2 ∧ u = { s with arg2 := w }) ∨
          (∃ i, t = .src i ∧ u = { s with src := Mem.set s.src i (unpack w) }) ∨
          (∃ i, t = .dst i ∧ u = { s with dst := Mem.set s.dst i (unpack w) }))) := by
  cases t <;> simp only [writeTarget] at h
  case cmd =>
    unfold writeCmd at h
    cases hd : decode w with
    | ok i => simp only [hd] at h; exact .inl ⟨rfl, i, rfl, h⟩
    | error e => simp only [hd] at h; split at h <;> cases h
  all_goals
    cases hb : s.status.busy <;> simp only [hb, if_true, if_false, Bool.false_eq_true] at h <;> cases h
  all_goals refine .inr ⟨rfl, ?_⟩
  · exact .inl ⟨rfl, rfl⟩
  · exact .inr (.inr (.inl ⟨rfl, rfl⟩))
  · exact .inr (.inr (.inr (.inl ⟨rfl, rfl⟩)))
  · exact .inr (.inr (.inr (.inr (.inl ⟨rfl, rfl⟩))))
  · exact .inr (.inl ⟨rfl, rfl⟩)
  · exact .inr (.inr (.inr (.inr (.inr (.inl ⟨_, rfl, rfl⟩)))))
  · exact .inr (.inr (.inr (.inr (.inr (.inr ⟨_, rfl, rfl⟩)))))

/-- A host write that answers is a legal access (R55) to a target. -/
theorem busWrite_next {a size : Nat} {w : Word} {s u : State} (h : busWrite a size w s = .next u) :
    accessOk a size = true ∧ ∃ t, targetAt s.cfg a = some t ∧ writeTarget t w s = .next u := by
  unfold busWrite at h
  cases ha : accessOk a size <;> simp only [ha, if_true, if_false, Bool.false_eq_true] at h
  · cases h
  · cases ht : targetAt s.cfg a with
    | none => simp only [ht] at h; cases h
    | some t => simp only [ht] at h; exact ⟨rfl, t, rfl, h⟩

/-! ### WAIT and the step -/

/-- One turn of `WAIT` (30_encoding.md R88): it reads `STATUS`; it is over when `BUSY` was 0, and otherwise the block has
completed a phase and the `WAIT` is pending again. -/
theorem waitTurn_eq (s : State) :
    waitTurn s =
      if s.status.busy then
        andThen (advance (s.give (statusWord s.status))) fun t => .next (t.withPending (.wait :: t.pending))
      else .next (s.give (statusWord s.status)) := rfl

/-- A step with nothing pending is a turn of the sequencer. -/
theorem step_of_no_action {s : State} (h : s.pending = []) : step s = advance s := by
  simp [step, nextAction, h]

/-- A step with something pending is the host's next action. -/
theorem step_of_action {s : State} {op : HostOp} {rest : List HostOp} (h : s.pending = op :: rest) :
    step s = hostAction op (s.withPending rest) := by
  simp [step, nextAction, h]

end Sys2Proof.Machine
end

