-- ==== Sys2Proof/Laws/Encoding.lean ====
section
/-!
SUPPORT. The numbers behind the fields of a word: the two fields of a command word, a word's bytes, and the two halves of
a packed sample.
-/

namespace Sys2Proof

/-- The value of two words put together. -/
theorem toNat_append_eq {v w : Nat} (x : BitVec v) (y : BitVec w) : (x ++ y).toNat = x.toNat * 2 ^ w + y.toNat := by
  rw [BitVec.toNat_append, ← Nat.shiftLeft_add_eq_or_of_lt y.isLt, Nat.shiftLeft_eq]

/-- The value of a field of a word. -/
theorem toNat_field {w : Nat} (x : BitVec w) (lo len : Nat) :
    (x.extractLsb' lo len).toNat = x.toNat / 2 ^ lo % 2 ^ len := by
  rw [BitVec.extractLsb'_toNat, Nat.shiftRight_eq_div_pow]

theorem Word.toNat_op (w : Word) : w.op.toNat = w.toNat % 4 := by
  exact toNat_field w 0 2 |>.trans (by simp)

theorem Word.toNat_rsv (w : Word) : w.rsv.toNat = w.toNat / 4 := by
  have := w.isLt
  simp only [Word.rsv, toNat_field]
  omega

/-- The reserved field is 0 exactly when the word is below 4. -/
theorem Word.rsv_eq_zero_iff (w : Word) : w.rsv = 0#30 ↔ w.toNat / 4 = 0 := by
  rw [← Word.toNat_rsv]
  exact ⟨fun h => by simp [h], fun h => BitVec.eq_of_toNat_eq (by simpa using h)⟩

/-- The value of a word that is put together from bytes. -/
theorem toNat_wordOfBytes (b0 b1 b2 b3 : Byte) :
    (wordOfBytes b0 b1 b2 b3).toNat = b0.toNat + 256 * b1.toNat + 65536 * b2.toNat + 16777216 * b3.toNat := by
  simp only [wordOfBytes, toNat_append_eq]
  omega

namespace Machine

/-- The value of a packed sample: the real part is the low half (20_memory.md R52). -/
theorem toNat_pack (c : Sample) : (pack c).toNat = c.im.toNat * 65536 + c.re.toNat := by
  exact toNat_append_eq c.im c.re

theorem toNat_unpack_re (w : Word) : (unpack w).re.toNat = w.toNat % 65536 := by
  exact toNat_field w 0 16 |>.trans (by simp)

theorem toNat_unpack_im (w : Word) : (unpack w).im.toNat = w.toNat / 65536 := by
  have := w.isLt
  simp only [unpack, toNat_field]
  omega

end Machine

end Sys2Proof
end

