-- ==== Sys2Proof/Laws/PerInstr.lean ====
section
/-!
SUPPORT. What holds of every command as syntax, one lemma per constructor of `Instr` (LAWS.json, family `EncodeDecode`).
-/

namespace Sys2Proof.Laws.EncodeDecode

/-- A command is well formed, its word is a well-formed command word, and decoding its word, or its bytes with anything
behind them, gives the command back (spec/30_encoding.md R80 to R83). -/
def Statement (i : Instr) : Prop :=
  i.wellFormed = true ∧ (encode i).commandOk = true ∧ decode (encode i) = .ok i ∧
    ∀ rest : List Byte, decodeBytes (encodeBytes i ++ rest) = .ok (i, rest)

theorem warmup : Statement .warmup := ⟨rfl, rfl, rfl, fun _ => rfl⟩

theorem reorder : Statement .reorder := ⟨rfl, rfl, rfl, fun _ => rfl⟩

theorem runlayer : Statement .runlayer := ⟨rfl, rfl, rfl, fun _ => rfl⟩

theorem transform : Statement .transform := ⟨rfl, rfl, rfl, fun _ => rfl⟩

end Sys2Proof.Laws.EncodeDecode
end

