-- ==== Sys2Proof/Tests/Slice0.lean ====
section
/-!
SUPPORT. Tests on fixed values, each expected value taken from the spec (the section is named), the smoke test of every
well-formedness check, and for every obligation with hypotheses a witness that meets them.
-/

namespace Sys2Proof.Tests

open Sys2Proof.Machine

/-! ### Small builds and states -/

/-- The samples of a list of pairs. -/
def samples (l : List (Int × Int)) : List Sample := l.map fun p => Sample.ofInts p.1 p.2

/-- The fixture of 95_test_vectors.md section 2.6 for `K = 2`, `FORWARD`. -/
def build2 : Config :=
  { Config.scenario with
    K := 2, sched := [0, 1],
    tw := samples [(32767, 0), (32767, 0), (30274, -12540), (23170, -23170), (12540, -30274), (0, -32768),
      (-12540, -30274), (-23170, -23170), (-30274, -12540), (-32768, 0), (-30274, 12540)] }

/-- The build of 95_test_vectors.md section 1.2, `INVERSE`. -/
def inverse1 : Config := { Config.scenario with dir := .inverse }

/-- After reset, with `SRC` written. -/
def withSrc (c : Config) (l : List (Int × Int)) : State :=
  { State.resetOf c with src := Mem.store [] (samples l) }

/-- After reset, with `DST` written. -/
def withDst (c : Config) (l : List (Int × Int)) : State :=
  { State.resetOf c with dst := Mem.store [] (samples l) }

/-- The operand registers. -/
def args (t st g : Word) (s : State) : State := { s with arg0 := t, arg1 := st, arg2 := g }

/-- The next state of a step, if it has one. -/
def nextOf (o : Host.Outcome State Fault Refusal) : Option State :=
  match o with
  | .next s => some s
  | _ => none

/-- The refusal of a step, if it is one. -/
def refusalOf (o : Host.Outcome State Fault Refusal) : Option Refusal :=
  match o with
  | .refused r => some r
  | _ => none

/-- The contents of `DST` after a step, if it has a next state. -/
def dstOf (o : Host.Outcome State Fault Refusal) : Option Mem := (nextOf o).map fun s => s.dst

/-- A ramp of four samples: the input of vector T2. -/
def ramp : List (Int × Int) := [(1000, 0), (2000, 0), (3000, 0), (4000, 0)]

/-- A state with `SRC` written, block idle. -/
def idle : State := withSrc Config.scenario ramp

/-- A state in which `TRANSFORM` has been accepted and no phase is done. -/
def busy : State := idle.accept ⟨.reorder, true, 0, 1, 0⟩

/-! ### Decoding: words written out from the format of 30_encoding.md R80, R81 -/

theorem test_decode_warmup_word : decode 0b000000000000000000000000000000_00#32 = .ok .warmup := by decide

theorem test_decode_reorder_word : decode 0b000000000000000000000000000000_01#32 = .ok .reorder := by decide

theorem test_decode_runlayer_word : decode 0b000000000000000000000000000000_10#32 = .ok .runlayer := by decide

theorem test_decode_transform_word : decode 0b000000000000000000000000000000_11#32 = .ok .transform := by decide

/-- The first, the last and one middle word with a reserved bit set (R85). -/
theorem test_decode_reserved_words :
    decode 0x00000004 = .error .reservedCommand ∧ decode 0xFFFFFFFF = .error .reservedCommand ∧
      decode 0b100000000000000000000000000000_01#32 = .error .reservedCommand := by decide

theorem test_decode_bytes :
    decodeBytes [0x02, 0x00, 0x00, 0x00, 0xAA] = .ok (.runlayer, [0xAA]) ∧
      decodeBytes [0x00, 0x00, 0x02] = .error .truncated ∧
      decodeBytes [0x00, 0x00, 0x00, 0x02] = .error .reservedCommand := by decide

/-- The rows of opcode_table.json. -/
theorem test_decode_table_words :
    decodeTableWord 32 0 = some .warmup ∧ decodeTableWord 32 1 = some .reorder ∧
      decodeTableWord 32 2 = some .runlayer ∧ decodeTableWord 32 3 = some .transform ∧
      decodeTableWord 32 4 = none := by decide

/-! ### Well-formedness: an ill-formed term for each check -/

theorem test_good_builds : Config.scenario.wellFormed = true ∧ build2.wellFormed = true ∧
    inverse1.wellFormed = true := by decide

theorem test_size_out_of_range :
    ({ Config.scenario with K := 0 } : Config).sizeOk = false ∧
      ({ Config.scenario with K := 16 } : Config).sizeOk = false := by decide

theorem test_schedule_of_wrong_length :
    ({ Config.scenario with sched := [] } : Config).schedOk = false ∧
      ({ Config.scenario with sched := [0, 0] } : Config).schedOk = false := by decide

/-- Layer 1 of the `K = 2` fixture reads up to `SCHED[1] + 9` (00_scope.md R9). -/
theorem test_schedule_beyond_table :
    ({ build2 with sched := [0, 2] } : Config).reachOk = false ∧
      ({ Config.scenario with sched := [1] } : Config).cfgOk = false := by decide

theorem test_empty_table : ({ Config.scenario with tw := [] } : Config).twlenOk = false := by decide

theorem test_unaligned_base :
    ({ Config.scenario with regBase := 2 } : Config).basesAligned = false ∧
      ({ Config.scenario with dstBase := 0x2001 } : Config).basesAligned = false := by decide

theorem test_overlapping_windows :
    ({ Config.scenario with srcBase := 0x14 } : Config).windowsDisjoint = false ∧
      ({ Config.scenario with dstBase := 0x100C } : Config).mapOk = false ∧
      ({ Config.scenario with srcBase := 0x18 } : Config).windowsDisjoint = true := by decide

theorem test_reserved_word_is_ill_formed :
    Word.commandOk 4 = false ∧ Word.commandOk 0xFFFFFFFC = false ∧ Word.commandOk 3 = true := by decide

/-! ### Arithmetic (95_test_vectors.md sections 2.2 to 2.4) -/

theorem test_prescale_vectors :
    q4 32767 = 8192 ∧ q4 32765 = 8191 ∧ q4 2 = 1 ∧ q4 1 = 0 ∧ q4 (-2) = 0 ∧ q4 (-3) = -1 ∧ q4 (-7) = -2 ∧
      q4 (-32768) = -8192 := by decide

theorem test_product_rounding_vectors :
    rq15 16383 = 0 ∧ rq15 16384 = 1 ∧ rq15 (-16384) = 0 ∧ rq15 (-16385) = -1 ∧ rq15 (-49152) = -1 ∧
      rq15 (-49153) = -2 ∧ rq15 1073741824 = 32768 := by decide

theorem test_wrap_vectors :
    (wrap16 32768).toInt = -32768 ∧ (wrap16 57344).toInt = -8192 ∧ (wrap16 (-32769)).toInt = 32767 ∧
      (wrap16 65536).toInt = 0 := by decide

theorem test_pack_vectors :
    pack (Sample.ofInts (-500) 500) = 0x01F4FE0C ∧ pack (Sample.ofInts (-32768) (-1)) = 0xFFFF8000 ∧
      pack (Sample.ofInts 30274 (-12540)) = 0xCF047642 := by decide

theorem test_product_vectors :
    cmul ⟨1000, -2000⟩ (Sample.ofInts 23170 (-23170)) = ⟨-707, -2121⟩ ∧
      cmul ⟨3, -3⟩ (Sample.ofInts 16384 (-16384)) = ⟨0, -2⟩ ∧
      cmul ⟨5, 7⟩ (Sample.ofInts 30274 (-12540)) = ⟨8, 4⟩ := by decide

theorem test_bitrev_table :
    (List.range 16).map (fun i => bitrev i 4) = [0, 8, 4, 12, 2, 10, 6, 14, 1, 9, 5, 13, 3, 11, 7, 15] ∧
      bitrev 0x55 8 = 0xAA ∧ bitrev 1 30 = 2 ^ 29 := by decide

/-! ### Butterflies (95_test_vectors.md section 2.5) -/

/-- The four outputs of a butterfly on samples and twiddles given as pairs. -/
def outputs (dir : Dir) (x w : List (Int × Int)) : List Sample :=
  let g := fun i => sampleAt (samples x) i
  let t := fun i => sampleAt (samples w) i
  let o := bfly dir (g 0) (g 1) (g 2) (g 3) (t 0) (t 1) (t 2)
  [o.o0, o.o1, o.o2, o.o3]

theorem test_butterfly_b6 :
    outputs .forward [(12000, -8000), (-3001, 4502), (7777, -1), (-20000, 15000)]
      [(30274, -12540), (23170, -23170), (12540, -30274)] =
      samples [(6614, 4636), (-4064, -3570), (-82, -5984), (9532, -3082)] := by decide +kernel

theorem test_butterfly_b7_inverse :
    outputs .inverse [(12000, -8000), (-3001, 4502), (7777, -1), (-20000, 15000)]
      [(30274, 12540), (23170, 23170), (12540, 30274)] =
      samples [(-1908, -4174), (398, 4908), (5256, 706), (8254, -9440)] := by decide +kernel

theorem test_butterfly_b8_wraps :
    outputs .forward [(32767, 32767), (-32768, -32768), (-32768, -32768), (-32768, -32768)]
      [(-32768, -32768), (-32768, -32768), (-32768, -32768)] =
      samples [(8192, -8192), (8192, -8192), (8192, -8192), (8192, -8192)] := by decide +kernel

theorem test_butterfly_b10_pairing :
    outputs .forward [(0, 0), (0, 0), (4000, 0), (0, 0)] [(0, -32768), (-32768, 0), (0, 32767)] =
      samples [(0, -1000), (-1000, 0), (0, 1000), (1000, 0)] := by decide +kernel

/-! ### One step each -/

/-- R170: `DONE <- 1` and nothing else. -/
theorem test_warmup_sets_done :
    nextOf (exec .warmup idle) = some { idle with status := ⟨false, true⟩ } := by decide

/-- The example of R106. -/
theorem test_reorder_example :
    dstOf (exec .reorder (withSrc Config.scenario [(1, 10), (2, 20), (3, 30), (4, 40)])) =
      some (Mem.store [] (samples [(1, 10), (3, 30), (2, 20), (4, 40)])) := by decide

/-- R41, R107: right after reset `SRC` is unwritten. -/
theorem test_reorder_refused_after_reset : refusalOf (exec .reorder State.reset) = some .unwrittenSample := by decide

/-- The example of R140. -/
theorem test_runlayer_example :
    dstOf (exec .runlayer (args 0 4 1 (withDst Config.scenario [(1000, 0), (3000, 0), (2000, 0), (4000, 0)]))) =
      some (Mem.store [] (samples [(2500, 0), (-500, 500), (-500, 0), (-500, -500)])) := by decide +kernel

/-- 95_test_vectors.md section 2.7: `RUNLAYER 1, 8, 2` on the `K = 2` fixture, a legal layer with stride 8. -/
theorem test_runlayer_stride_eight :
    dstOf (exec .runlayer (args 1 8 2 (withDst build2 [(1000, 0), (9000, -4000), (5000, -2000), (13000, -6000),
      (3000, -1000), (11000, -5000), (7000, -3000), (15000, -7000), (2000, -500), (10000, -4500), (6000, -2500),
      (14000, -6500), (4000, -1500), (12000, -5500), (8000, -3500), (16000, -7500)]))) =
      some (Mem.store [] (samples [(4000, -1500), (5368, -10701), (-500, 1500), (2941, 114), (-1000, 500), (1606, 1983),
        (-1500, -500), (-915, 4604), (5000, -2000), (5871, -11581), (-500, 1500), (3170, 52), (-1000, 500),
        (1781, 2083), (-1500, -500), (-822, 4946)])) := by decide +kernel

/-- Vector T2, issued through a host write of the command word. -/
theorem test_transform_ramp :
    dstOf (step (idle.withFetchWord 32 3)) =
      some (Mem.store [] (samples [(2500, 0), (-500, 500), (-500, 0), (-500, -500)])) := by decide +kernel

/-- Vector T9: the `K = 2` transform. -/
theorem test_transform_k2 :
    dstOf (exec .transform (withSrc build2 ((List.range 16).map fun j => (1000 * (j + 1), -500 * j)))) =
      some (Mem.store [] (samples [(8500, -3750), (756, 2764), (104, 1458), (-126, 998), (-250, 750), (-332, 584),
        (-396, 458), (-450, 350), (-500, 250), (-550, 150), (-604, 42), (-668, -84), (-750, -250), (-874, -498),
        (-1104, -958), (-1756, -2264)])) := by decide +kernel

/-- The word that a read of `CFG` gives in program P1. -/
theorem test_cfg_words : cfgWord Config.scenario = 0x00000001 ∧ cfgWord build2 = 0x00000002 ∧
    cfgWord inverse1 = 0x00000011 := by decide

/-- R53: the bytes of `(-500, 500)`, packed `0x01F4FE0C`, from the lowest address on. -/
theorem test_bytes_of_a_sample :
    let s := withSrc Config.scenario [(-500, 500), (0, 0), (0, 0), (0, 0)]
    s.byteAt 0x1000 = some 0x0C ∧ s.byteAt 0x1001 = some 0xFE ∧ s.byteAt 0x1002 = some 0xF4 ∧
      s.byteAt 0x1003 = some 0x01 ∧ s.byteAt 0x2000 = none := by decide

/-- The packed word of R52's example: a `DST` window that holds `(-500, 500)` in entry 1, packed `0x01F4FE0C`. `GETDST 1`
lists the sample (R88). -/
theorem test_getdst_lists_sample :
    (nextOf (step ((withDst Config.scenario [(2500, 0), (-500, 500), (-500, 0), (-500, -500)]).load [.getdst 1]))).map
      (fun t => (t.result, t.rdata)) = some ([Sample.ofInts (-500) 500], [0x01F4FE0C]) := by decide

/-- Program P6's first lines: accesses outside the contract after reset. -/
theorem test_refused_accesses :
    refusalOf (step (State.reset.withPending [.write 0x0000 4 4])) = some .reservedCommand ∧
      refusalOf (step (State.reset.withPending [.read 0x0018 4])) = some .badAddress ∧
      refusalOf (step (State.reset.withPending [.read 0x0002 4])) = some .badAccess ∧
      refusalOf (step (State.reset.withPending [.read 0x1000 2])) = some .badAccess ∧
      refusalOf (step (State.reset.withPending [.read 0x1000 4])) = some .unwrittenSample := by decide

/-! ### Witnesses: for every obligation with hypotheses, values that meet them (each clause at the ends of its range) -/

theorem witness_DecodingIsTotalAndSelectsByOp :
    (4#32).toNat / 4 ≠ 0 ∧ (0xFFFFFFFF#32).toNat / 4 ≠ 0 ∧
      (∀ n : Fin 4, (BitVec.ofNat 32 n).toNat / 4 = 0 ∧ (BitVec.ofNat 32 n).toNat % 4 = n) ∧
      ∀ r ∈ opcodeRows, r.hits r.pattern = true := by decide

theorem witness_SampleBytesAreLittleEndian :
    Config.scenario.mapOk = true ∧ 3 < Config.scenario.N ∧ 0 < Config.scenario.N ∧
      Mem.get? idle.src 0 = some (Sample.ofInts 1000 0) ∧ Mem.get? idle.src 3 = some (Sample.ofInts 4000 0) ∧
      Mem.get? (withDst Config.scenario ramp).dst 3 = some (Sample.ofInts 4000 0) ∧
      idle.byteAt 0x1000 = some 0xE8 ∧ idle.byteAt 0x100D = some 0x0F := by decide

theorem witness_WrapIsCongruentAndUnique :
    (Sample.ofInts (-32768) 0).re.toInt % 65536 = (32768 : Int) % 65536 ∧
      (Sample.ofInts 32767 0).re.toInt % 65536 = (-32769 : Int) % 65536 := by decide

theorem witness_ProductRoundingIsHalfUpAndNotOdd :
    (16384 : Int) % 32768 = 16384 ∧ (-16384 : Int) % 32768 = 16384 ∧ (16383 : Int) % 32768 ≠ 16384 := by decide

/-- Both ends of the range, and the first values outside it, where the first clause is false. -/
theorem witness_ExactTwiddleProducts :
    ((-16384 : Int) < -16383 ∧ rq15 (-16383 * 32767) = -16383 ∧ rq15 (16384 * 32767) = 16384) ∧
      rq15 (16385 * 32767) ≠ 16385 ∧ rq15 (-16384 * 32767) ≠ -16384 := by decide

/-- R143: "The bound is reached". -/
theorem witness_ButterflyRanges :
    (bflyTree .forward (Sample.ofInts 32767 32767) (Sample.ofInts (-32768) (-32768)) (Sample.ofInts (-32768) (-32768))
        (Sample.ofInts (-32768) (-32768)) (Sample.ofInts (-32768) (-32768)) (Sample.ofInts (-32768) (-32768))
        (Sample.ofInts (-32768) (-32768))).y0 = ⟨8192, 57344⟩ ∧
      rq15 (-8192 * (-32768)) = 8192 ∧ rq15 (8192 * (-32768)) = -8192 := by decide +kernel

theorem witness_ModerateInputsNeverWrap :
    SampleWithin 18725 (Sample.ofInts 18725 (-18725)) ∧ SampleWithin 18725 (Sample.ofInts (-18725) 18725) := by
  unfold SampleWithin
  decide

theorem witness_BitrevReadsBitsBackwards :
    0 < 2 ^ 0 ∧ 15 < 2 ^ 4 ∧ (bitrev 1 4).testBit 3 = true ∧ (bitrev 8 4).testBit 0 = true := by decide

theorem witness_BitReversalAndReorderAreInvolutions :
    1 < 2 ^ 4 ∧ bitrev 6 4 = 6 ∧ bitrev 1 4 ≠ 1 ∧ (samples ramp).length = Config.scenario.N ∧
      3 < Config.scenario.N := by decide

theorem witness_NativeWidthDoesNotAffectBitrev : 4 ≤ 32 ∧ 4 ≤ 4 ∧ 1 < 2 ^ 4 ∧ bitrev 1 32 / 2 ^ 28 = 8 := by decide

theorem witness_CopiesMayBeDoneInAnyOrder :
    [3, 1, 0, 2].Perm (List.range Config.scenario.N) ∧ (samples ramp).length = Config.scenario.N := by decide

theorem witness_ReorderCompletesWithBitReversedCopy :
    idle.status.busy = false ∧ Mem.buffer? idle.src idle.cfg.N = some (samples ramp) := by decide

/-- The layers with the smallest and the largest stride of the `K = 2` fixture, and one more legal stride. -/
theorem witness_layers :
    ∀ p ∈ [(4, 4), (8, 2), (16, 1)],
      strideOk p.1 = true ∧ groupsOk build2 p.1 p.2 = true ∧ p.2 * (4 * (p.1 / 4)) = build2.N ∧
        reachOk build2 1 (p.1 / 4) = true ∧ p.2 - 1 < p.2 ∧ p.1 / 4 - 1 < p.1 / 4 := by decide

theorem witness_LayerAppliesEachButterflyOnce :
    strideOk 16 = true ∧ groupsOk build2 16 1 = true ∧ (List.replicate 16 Sample.zero).length = build2.N ∧
      (0 < 1 ∧ 0 < 16 / 4) ∧ 3 < 16 / 4 := by decide

theorem witness_LayerIndicesStayInsideTheirSpaces :
    reachOk build2 1 4 = true ∧ reachOk build2 2 4 = false ∧ reachOk build2 10 1 = true ∧
      reachOk build2 11 1 = false := by decide

theorem witness_ButterfliesMayBeDoneInAnyOrder :
    strideOk 4 = true ∧ groupsOk build2 4 4 = true ∧ (List.replicate 16 Sample.zero).length = build2.N ∧
      [(2, 0), (0, 0), (3, 0), (1, 0)].Perm (layerWork (4 / 4) 4) := by decide

theorem witness_RunlayerRunsExactlyOnLegalOperands :
    refusalOf (exec .runlayer (args 0 4 1 busy)) = some .busyWrite ∧
      refusalOf (exec .runlayer (args 0 6 2 (withDst build2 ramp))) = some .badOperand ∧
      refusalOf (exec .runlayer (args 0 4 3 (withDst build2 ramp))) = some .badOperand ∧
      refusalOf (exec .runlayer (args 2 16 1 (withDst build2 ramp))) = some .badIndex ∧
      refusalOf (exec .runlayer (args 0xFFFFFFFF 4 4 (withDst build2 ramp))) = some .badIndex ∧
      refusalOf (exec .runlayer (args 0 4 4 (withDst build2 ramp))) = some .unwrittenSample := by decide

theorem witness_RunlayerCompletesWithLayerOfDst :
    let s := args 0 4 1 (withDst Config.scenario ramp)
    s.status.busy = false ∧ 4 ≤ s.arg1.toNat ∧ s.arg1.toNat % 4 = 0 ∧ s.arg2.toNat * s.arg1.toNat = s.cfg.N ∧
      s.arg0.toNat + 3 * (s.arg1.toNat / 4 - 1) < s.cfg.twlen ∧
      Mem.buffer? s.dst s.cfg.N = some (samples ramp) := by decide

theorem witness_TransformIsExactlyKLayers : 1 ≤ build2.K ∧ build2.K ≤ 2 ∧ build2.K ≤ 100 := by decide

/-- The hypotheses of the statements about `TRANSFORM` from acceptance to completion. -/
theorem witness_TransformCompletesWithTransformOfSrc :
    idle.status.busy = false ∧ idle.cfg.cfgOk = true ∧
      Mem.buffer? idle.src idle.cfg.N = some (samples ramp) ∧ 0 < idle.cfg.K := by decide

/-- Layers 0 and `K - 1` of a longer build. -/
theorem witness_TransformPassesThroughItsPhases :
    build2.cfgOk = true ∧ 0 < build2.K ∧ build2.K - 1 < build2.K ∧ build2.sched[0]? = some 0 ∧
      build2.sched[1]? = some 1 := by decide

theorem witness_TransformEqualsChainOfCommands :
    idle.status.busy = false ∧ idle.cfg.cfgOk = true ∧ idle.cfg.regBase % 4 = 0 ∧
      Mem.allWritten idle.src idle.cfg.N = true := by decide

/-- Two states that differ in the old contents of `DST`, an operand register and `DONE`. -/
theorem witness_TransformDependsOnSrcAlone :
    let s' := { idle with dst := Mem.store [] (samples ramp), arg0 := 7, status := ⟨false, true⟩ }
    idle.cfg = s'.cfg ∧ (∀ i, i < idle.cfg.N → Mem.get? idle.src i = Mem.get? s'.src i) ∧
      (∃ t, exec .transform idle = .next t) ∧ ∃ t, exec .transform s' = .next t :=
  ⟨rfl, fun _ _ => rfl, ⟨_, rfl⟩, ⟨_, rfl⟩⟩

theorem witness_WarmupOnlySetsDone :
    idle.status.busy = false ∧ busy.status.busy = true ∧ ∃ t, exec .warmup idle = .next t :=
  ⟨rfl, rfl, ⟨_, rfl⟩⟩

/-- Every command has a next state somewhere, and `REORDER` and `TRANSFORM` are refused for each of their reasons. -/
theorem witness_CommandRefusedExactlyOnViolation :
    (nextOf (exec .warmup idle)).isSome ∧ (nextOf (exec .reorder idle)).isSome ∧
      (nextOf (exec .transform idle)).isSome ∧
      (nextOf (exec .runlayer (args 0 4 1 (withDst Config.scenario ramp)))).isSome ∧
      refusalOf (exec .reorder busy) = some .busyWrite ∧ refusalOf (exec .transform busy) = some .busyWrite ∧
      refusalOf (exec .reorder State.reset) = some .unwrittenSample ∧
      refusalOf (exec .transform State.reset) = some .unwrittenSample ∧
      refusalOf (exec .transform (withSrc { Config.scenario with sched := [1] } ramp)) = some .badConfig := by
  decide +kernel

/-- The hypothesis of the statements about a command's frame, its bytes and its acceptance, for every command. -/
theorem witness_AcceptanceSetsBusyAndSeq :
    (∃ a, accept .warmup idle = .next a) ∧ (∃ a, accept .reorder idle = .next a) ∧
      (∃ a, accept .runlayer (args 0 4 1 (withDst Config.scenario ramp)) = .next a) ∧
      ∃ a, accept .transform idle = .next a :=
  ⟨⟨_, rfl⟩, ⟨_, rfl⟩, ⟨_, rfl⟩, ⟨_, rfl⟩⟩

theorem witness_CommandsLeaveTheRestUnchanged :
    (∃ t, exec .warmup idle = .next t) ∧ (∃ t, exec .reorder idle = .next t) ∧
      (∃ t, exec .runlayer (args 0 4 1 (withDst Config.scenario ramp)) = .next t) ∧
      ∃ t, exec .transform idle = .next t :=
  ⟨⟨_, rfl⟩, ⟨_, rfl⟩, ⟨_, rfl⟩, ⟨_, rfl⟩⟩

/-- The bytes just below and just behind the `DST` window, and a byte inside it under `WARMUP`. -/
theorem witness_CommandsTouchOnlyBytesOfDst :
    (¬(idle.cfg.dstBase ≤ 0x1FFF ∧ 0x1FFF < idle.cfg.dstBase + 4 * idle.cfg.N)) ∧
      (¬(idle.cfg.dstBase ≤ 0x2010 ∧ 0x2010 < idle.cfg.dstBase + 4 * idle.cfg.N)) ∧
      (∃ t, exec .reorder idle = .next t) ∧ ∃ t, exec .warmup idle = .next t :=
  ⟨by decide, by decide, ⟨_, rfl⟩, ⟨_, rfl⟩⟩

theorem witness_PhasesRefineTheAtomicCommand :
    (∃ a, accept .transform idle = .next a) ∧ accept .transform State.reset = .refused .unwrittenSample :=
  ⟨⟨_, rfl⟩, rfl⟩

theorem idle_inv : MachineInv idle :=
  ⟨by decide, by decide, by decide, by decide, by decide, by decide, trivial⟩

theorem busy_inv : MachineInv busy :=
  ⟨by decide, by decide, by decide, by decide, by decide, by decide,
    ⟨by decide, fun _ => ⟨by decide, rfl, rfl⟩⟩⟩

/-- The state between the reorder and the one layer of a `TRANSFORM`. -/
def inLayer : State :=
  { busy with seq := ⟨.layer, true, 0, 1, 0⟩, dst := Mem.store [] (samples [(1000, 0), (3000, 0), (2000, 0), (4000, 0)]) }

theorem inLayer_inv : MachineInv inLayer :=
  ⟨by decide, by decide, by decide, by decide, by decide, by decide,
    ⟨by decide, fun _ => ⟨by decide, by decide, rfl, rfl⟩, fun h => by cases h⟩⟩

theorem witness_EveryStepKeepsTheInvariant :
    (MachineInv busy ∧ ∃ t, step busy = .next t) ∧ (MachineInv inLayer ∧ ∃ t, step inLayer = .next t) ∧
      MachineInv idle ∧ ∃ t, step (idle.withFetchWord 32 3) = .next t :=
  ⟨⟨busy_inv, ⟨_, rfl⟩⟩, ⟨inLayer_inv, ⟨_, rfl⟩⟩, idle_inv, ⟨_, rfl⟩⟩

theorem witness_BuildNeverChanges :
    (∃ t, step busy = .next t) ∧ (∃ t, step (inLayer.withPending [.reset]) = .next t) ∧
      ∃ t, step (idle.withFetchWord 32 1) = .next t := ⟨⟨_, rfl⟩, ⟨_, rfl⟩, ⟨_, rfl⟩⟩

/-- The next actions that are neither a write nor a reset, and none at all. -/
theorem witness_OnlyTheHostWritesSrcAndOperands :
    ∀ ops ∈ [[], [HostOp.tick], [HostOp.wait], [HostOp.read 0x0004 4], [HostOp.get 0x0004]],
      (nextOf (step (busy.withPending ops))).isSome ∧
        (∀ a size w rest, (busy.withPending ops).pending ≠ .write a size w :: rest) ∧
        ∀ rest, (busy.withPending ops).pending ≠ .reset :: rest := by
  intro ops h
  simp only [List.mem_cons, List.not_mem_nil, or_false] at h
  rcases h with rfl | rfl | rfl | rfl | rfl <;> exact ⟨rfl, by simp [State.withPending], by simp [State.withPending]⟩

/-- The first and the last phase of a `TRANSFORM`, and no phase at all. -/
theorem witness_RunningPhaseAlwaysCompletes :
    (MachineInv busy ∧ busy.status.busy = true) ∧ (MachineInv inLayer ∧ inLayer.status.busy = true) ∧ MachineInv idle :=
  ⟨⟨busy_inv, rfl⟩, ⟨inLayer_inv, rfl⟩, idle_inv⟩

theorem witness_StepRunsTheDecodedCommand :
    idle.cfg.regBase % 4 = 0 ∧
      (idle.withFetchWord 32 3).pending = [.write idle.cfg.regBase 4 3] ∧ decode 3 = .ok .transform ∧
      (idle.withFetchWord 32 3).grain = .command ∧ ({ idle with grain := .phase } : State).grain = .phase := by decide

theorem witness_IdleBlockWaits :
    (idle.pending = [] ∧ idle.seq.phase = .idle) ∧ busy.pending = [] ∧ busy.seq.phase ≠ .idle := by decide

theorem witness_StatusAndCfgFields :
    (1 ≤ Config.scenario.K ∧ Config.scenario.K ≤ 15) ∧
      1 ≤ ({ inverse1 with K := 15 } : Config).K ∧ ({ inverse1 with K := 15 } : Config).K ≤ 15 ∧
      cfgWord { inverse1 with K := 15 } = 0x0000001F := by decide

/-- The address of each register, block busy and not busy. -/
theorem witness_RegisterReadsReturnTheirValues :
    (∀ o ∈ [0x04, 0x14], (nextOf (step (busy.withPending [.read (busy.cfg.regBase + o) 4]))).isSome) ∧
      ∀ o ∈ [0x00, 0x04, 0x08, 0x0C, 0x10, 0x14],
        idle.status.busy = false ∧ idle.cfg.regBase % 4 = 0 ∧
          (nextOf (step (idle.withPending [.read (idle.cfg.regBase + o) 4]))).isSome := by decide

theorem witness_ReadsHaveNoSideEffect :
    (∃ t, step (idle.withPending [.read 0x1000 4, .read 0x1000 4]) = .next t) ∧
      ∃ t, step (busy.withPending [.read 0x0004 4, .read 0x0004 4]) = .next t :=
  ⟨⟨_, rfl⟩, ⟨_, rfl⟩⟩

/-- Each register, followed by a command word, by nothing, and by a read of it. -/
theorem witness_OperandRegistersKeepAnyWord :
    idle.cfg.regBase % 4 = 0 ∧ idle.status.busy = false ∧
      (∀ o ∈ [0x08, 0x0C, 0x10], ∀ rest ∈ [[], [cmdWrite idle.cfg .runlayer]],
        (nextOf (step (idle.withPending (.write (idle.cfg.regBase + o) 4 0xFFFFFFFF :: rest)))).isSome) ∧
      ∀ o ∈ [0x08, 0x0C, 0x10],
        (nextOf (step (idle.withPending [.write (idle.cfg.regBase + o) 4 0xFFFFFFFF,
          .read (idle.cfg.regBase + o) 4]))).isSome := by decide

/-- The first and the last entry, each write followed by another write, by a command word, by nothing and by a read. -/
theorem witness_HostWindowsHoldWholeSamples :
    let s := { idle with dst := Mem.store [] (samples ramp) }
    s.cfg.mapOk = true ∧ s.status.busy = false ∧
      ∀ i ∈ [0, s.cfg.N - 1], i < s.cfg.N ∧ (Mem.get? s.src i).isSome ∧ (Mem.get? s.dst i).isSome ∧
        (∀ rest ∈ [[], [wr4 (s.cfg.srcBase + 4) 0], [cmdWrite s.cfg .transform]],
          (nextOf (step (s.withPending (.write (s.cfg.srcBase + 4 * i) 4 0x01F4FE0C :: rest)))).isSome ∧
          (nextOf (step (s.withPending (.write (s.cfg.dstBase + 4 * i) 4 0x01F4FE0C :: rest)))).isSome) ∧
        (nextOf (runSteps 2 (s.withPending [.write (s.cfg.srcBase + 4 * i) 4 0x01F4FE0C,
          rd4 (s.cfg.srcBase + 4 * i)]))).isSome ∧
        (nextOf (runSteps 2 (s.withPending [.write (s.cfg.dstBase + 4 * i) 4 0x01F4FE0C,
          rd4 (s.cfg.dstBase + 4 * i)]))).isSome ∧
        (nextOf (step (s.withPending [.read (s.cfg.dstBase + 4 * i) 4]))).isSome := by decide +kernel

/-- A read that answers and one that is refused; the first and the last entry of both memories. -/
theorem witness_GetListsTheUnpackedSample :
    let s := { idle with dst := Mem.store [] (samples ramp) }
    (nextOf (step (busy.withPending [.get 0x0004]))).isSome ∧
      refusalOf (step (busy.withPending [.get 0x1000])) = some .busyAccess ∧
      s.cfg.mapOk = true ∧ s.status.busy = false ∧
      ∀ i ∈ [0, s.cfg.N - 1], i < s.cfg.N ∧ (Mem.get? s.src i).isSome ∧ (Mem.get? s.dst i).isSome := by decide +kernel

theorem witness_ReadOnlyRegistersIgnoreWrites :
    idle.cfg.regBase % 4 = 0 ∧ idle.status.busy = false ∧
      nextOf (step (idle.withPending [.write (idle.cfg.regBase + 0x04) 4 0xFFFFFFFF])) = some idle ∧
      nextOf (step (idle.withPending [.write (idle.cfg.regBase + 0x14) 4 0xFFFFFFFF])) = some idle := by decide

/-- An address of each target, block busy. -/
theorem witness_BusyBlockOwnsMemoriesAndOperands :
    busy.status.busy = true ∧
      (targetAt busy.cfg 0x1000 = some (.src 0) ∧ targetAt busy.cfg 0x100C = some (.src 3)) ∧
      (targetAt busy.cfg 0x2000 = some (.dst 0) ∧ targetAt busy.cfg 0x200C = some (.dst 3)) ∧
      targetAt busy.cfg 0x00 = some .cmd ∧ targetAt busy.cfg 0x04 = some .status ∧
      targetAt busy.cfg 0x08 = some .arg0 ∧ targetAt busy.cfg 0x0C = some .arg1 ∧
      targetAt busy.cfg 0x10 = some .arg2 ∧ targetAt busy.cfg 0x14 = some .cfg ∧
      ∀ a ∈ [0x00, 0x04, 0x14],
        refusalOf (step (busy.withPending [.write a 4 0x80000001])) = some .busyWrite := by decide

/-- Widths and alignments outside the contract, and the first addresses behind each window. -/
theorem witness_IllegalAccessesAreRefused :
    (∀ p ∈ [(0x1000, 2), (0x1000, 8), (0x1000, 1), (0x1002, 4), (0x1003, 4)],
      (p.2 ≠ 4 ∨ p.1 % 4 ≠ 0) ∧ refusalOf (step (idle.withPending [.read p.1 p.2])) = some .badAccess ∧
        refusalOf (step (idle.withPending [.write p.1 p.2 0])) = some .badAccess) ∧
      ∀ a ∈ [0x18, 0x1010, 0x0FFC, 0x2010, 0x1FFC],
        a % 4 = 0 ∧ ¬(idle.cfg.regBase ≤ a ∧ a < idle.cfg.regBase + 0x18) ∧
          ¬(idle.cfg.srcBase ≤ a ∧ a < idle.cfg.srcBase + 4 * idle.cfg.N) ∧
          ¬(idle.cfg.dstBase ≤ a ∧ a < idle.cfg.dstBase + 4 * idle.cfg.N) := by decide

theorem witness_ReservedCommandWordsAreRefused :
    idle.cfg.regBase % 4 = 0 ∧ idle.status.busy = false ∧ 4 ≤ (4#32).toNat ∧ 4 ≤ (0xFFFFFFFF#32).toNat := by decide

theorem witness_UnwrittenSamplesAreNeverRead :
    (Config.scenario.mapOk = true ∧ idle.status.busy = false) ∧
      (∀ i ∈ [0, 3], i < Config.scenario.N ∧ Mem.get? idle.dst i = none) ∧
      ∀ i ∈ [0, 3], Mem.get? (withDst Config.scenario ramp).src i = none := by decide

theorem witness_ResetAbandonsARunningCommand :
    (inLayer.withPending [.reset]).pending = [.reset] ∧ inLayer.status.busy = true ∧
      nextOf (step (inLayer.withPending [.reset])) = some State.reset := by decide

theorem witness_WaitAlwaysEnds :
    MachineInv (busy.withPending [.wait]) ∧ (busy.withPending [.wait]).pending = .wait :: [] :=
  ⟨⟨busy_inv.busy_iff, busy_inv.not_both, busy_inv.src_wf, busy_inv.dst_wf, busy_inv.src_below, busy_inv.dst_below,
    busy_inv.seq_ok⟩, rfl⟩

theorem witness_HostActionRefusedExactlyOnViolation :
    MachineInv (busy.withPending [.read 0x1000 4]) ∧
      step (busy.withPending [.read 0x1000 4]) = .refused .busyAccess ∧
      ∃ t, step (busy.withPending [.read 0x0004 4]) = .next t :=
  ⟨⟨busy_inv.busy_iff, busy_inv.not_both, busy_inv.src_wf, busy_inv.dst_wf, busy_inv.src_below, busy_inv.dst_below,
    busy_inv.seq_ok⟩, rfl, ⟨_, rfl⟩⟩

end Sys2Proof.Tests
end

/-!
What `TRANSFORM` leaves in `DST` depends on the build and `SRC` alone (spec/00_scope.md R12, spec/42_orchestrator.md
R168): two runs are compared phase by phase. Acceptance and the reorder phase overwrite everything in which the two may
differ, and every later phase is a function of the build, `SEQ` and the first `N` entries of `DST`.
-/

namespace Sys2Proof.Machine

/-! ### Memories that agree on their first entries -/

/-- Two memories hold the same in each of the entries `0 .. n-1`, unwritten entries included. -/
def Mem.AgreeBelow (n : Nat) (m m' : Mem) : Prop := ∀ i, i < n → Mem.get? m i = Mem.get? m' i

theorem Mem.AgreeBelow.buffer?_eq {n : Nat} {m m' : Mem} (h : Mem.AgreeBelow n m m') :
    Mem.buffer? m n = Mem.buffer? m' n := by
  ext buf
  rw [Mem.buffer?_eq_some_iff, Mem.buffer?_eq_some_iff]
  exact and_congr_right fun _ => forall₂_congr fun k hk => by rw [h k hk]

/-- Storing a whole buffer hides what the memories held before. -/
theorem Mem.agreeBelow_store {n : Nat} (m m' : Mem) {buf : List Sample} (h : buf.length = n) :
    Mem.AgreeBelow n (Mem.store m buf) (Mem.store m' buf) := by
  intro i hi
  rw [Mem.get?_store, Mem.get?_store, if_pos (h ▸ hi), if_pos (h ▸ hi)]

/-! ### Two runs in the layers -/

/-- Two runs are at the same point behind the reorder phase: the same build, the same `SEQ` and the same buffer in `DST`.
Nothing else of the state is read from here on. -/
structure LayersAgree (s s' : State) : Prop where
  cfg_eq : s.cfg = s'.cfg
  seq_eq : s.seq = s'.seq
  past_reorder : s.seq.phase ≠ .reorder
  dst_agree : Mem.AgreeBelow s.cfg.N s.dst s'.dst

theorem LayersAgree.toPhase {s s' : State} (h : LayersAgree s s') {q : Seq} (hq : q.phase ≠ .reorder) :
    LayersAgree (s.toPhase q) (s'.toPhase q) :=
  ⟨h.cfg_eq, rfl, hq, h.dst_agree⟩

theorem LayersAgree.complete {s s' : State} (h : LayersAgree s s') : LayersAgree s.complete s'.complete :=
  ⟨h.cfg_eq, by simp [h.seq_eq], by simp, h.dst_agree⟩

theorem LayersAgree.storeDst {s s' : State} (h : LayersAgree s s') {buf : List Sample} (hl : buf.length = s.cfg.N) :
    LayersAgree (s.storeDst buf) (s'.storeDst buf) :=
  ⟨h.cfg_eq, h.seq_eq, h.past_reorder, Mem.agreeBelow_store s.dst s'.dst hl⟩

/-- The sequencer goes the same way in both runs: its choice reads `SEQ` and the build alone (R163). -/
theorem LayersAgree.afterLayer {s s' t t' : State} (h : LayersAgree s s') (ht : afterLayer s = .next t)
    (ht' : afterLayer s' = .next t') : LayersAgree t t' := by
  rw [afterLayer_eq_next_iff] at ht ht'
  rw [← h.seq_eq, ← h.cfg_eq] at ht'
  obtain ⟨hc, hm, w, hw, rfl⟩ | ⟨hlast, rfl⟩ := ht <;> obtain ⟨hc', hm', w', hw', rfl⟩ | ⟨hlast', rfl⟩ := ht'
  · obtain rfl : w = w' := by simpa [hw] using hw'
    exact h.toPhase (by simp)
  · exact absurd ⟨hc, hm⟩ hlast'
  · exact absurd ⟨hc', hm'⟩ hlast
  · exact h.complete

/-- One turn of the sequencer keeps two runs together: both work on the same buffer. -/
theorem LayersAgree.advance {s s' t t' : State} (h : LayersAgree s s') (ht : advance s = .next t)
    (ht' : advance s' = .next t') : LayersAgree t t' := by
  rw [advance_eq_next_iff] at ht ht'
  rw [← h.seq_eq, ← h.cfg_eq] at ht'
  obtain ⟨hp, rfl⟩ | ⟨hp, -⟩ | ⟨hp, -, buf, hbuf, ht⟩ := ht
  · obtain ⟨-, rfl⟩ | ⟨hp', -⟩ | ⟨hp', -⟩ := ht'
    · exact h
    · exact absurd hp' h.past_reorder
    · simp [hp] at hp'
  · exact absurd hp h.past_reorder
  · obtain ⟨hp', -⟩ | ⟨hp', -⟩ | ⟨-, -, buf', hbuf', ht'⟩ := ht'
    · simp [hp] at hp'
    · exact absurd hp' h.past_reorder
    · obtain rfl : buf = buf' := by simpa [← h.dst_agree.buffer?_eq, hbuf] using hbuf'
      have hlen : buf.length = s.cfg.N := ((Mem.buffer?_eq_some_iff _ _ _).1 hbuf).1
      exact (h.storeDst ((layer_length ..).trans hlen)).afterLayer ht ht'

theorem LayersAgree.runPhases {n : Nat} {s s' t t' : State} (h : LayersAgree s s') (ht : runPhases n s = .next t)
    (ht' : runPhases n s' = .next t') : LayersAgree t t' := by
  induction n generalizing s s' with
  | zero => cases ht; cases ht'; exact h
  | succ n ih =>
    obtain ⟨u, hu, hut⟩ := andThen_eq_next_iff.1 ht
    obtain ⟨u', hu', hut'⟩ := andThen_eq_next_iff.1 ht'
    exact ih (h.advance hu hu') hut hut'

/-! ### The beginning of `TRANSFORM` -/

/-- The state of a `TRANSFORM` behind its reorder phase, where `buf` is what `SRC` held and `w` is `SCHED[0]` (R161,
R162). -/
def State.atFirstLayer (s : State) (buf : List Sample) (w : Word) : State :=
  ((s.accept ⟨.reorder, true, 0, 1, s.seq.tws⟩).storeDst (reorder s.cfg buf)).toPhase ⟨.layer, true, 0, 1, w⟩

/-- A `TRANSFORM` that answers has copied `SRC` to `DST` and gone on to the layers. -/
theorem execTransform_next {s t : State} (h : execTransform s = .next t) :
    ∃ buf w, Mem.buffer? s.src s.cfg.N = some buf ∧ s.cfg.sched[0]? = some w ∧
      runPhases s.cfg.K (s.atFirstLayer buf w) = .next t := by
  obtain ⟨a, ha, hrun⟩ := andThen_eq_next_iff.1 h
  obtain ⟨-, -, -, rfl⟩ := acceptTransform_eq_next_iff.1 ha
  obtain ⟨u, hu, hrest⟩ := andThen_eq_next_iff.1 hrun
  obtain ⟨hp, -⟩ | ⟨-, buf, hbuf, hafter⟩ | ⟨hp, -⟩ := advance_eq_next_iff.1 hu
  · simp at hp
  · obtain ⟨-, w, hw, rfl⟩ | ⟨hc, -⟩ := afterReorder_eq_next_iff.1 hafter
    · exact ⟨buf, w, hbuf, hw, hrest⟩
    · simp at hc
  · simp at hp

/-- The reorder phase overwrites the whole buffer and `SEQ`, so two runs with the same build agree behind it. -/
theorem layersAgree_atFirstLayer {s s' : State} (h : s.cfg = s'.cfg) (buf : List Sample) (w : Word) :
    LayersAgree (s.atFirstLayer buf w) (s'.atFirstLayer buf w) where
  cfg_eq := h
  seq_eq := rfl
  past_reorder := by simp [State.atFirstLayer]
  dst_agree := by
    simpa [State.atFirstLayer, h] using Mem.agreeBelow_store s.dst s'.dst (reorder_length s'.cfg buf)

/-- Settles O28: behind the reorder phase the two runs agree, and every further phase keeps them together. -/
theorem transformDependsOnSrcAlone : Obligations.TransformDependsOnSrcAlone := by
  intro s s' t t' hcfg hsrc ht ht' i hi
  obtain ⟨buf, w, hbuf, hw, hrun⟩ := execTransform_next ht
  obtain ⟨buf', w', hbuf', hw', hrun'⟩ := execTransform_next ht'
  rw [← hcfg] at hbuf' hw' hrun'
  have hread : Mem.buffer? s.src s.cfg.N = Mem.buffer? s'.src s.cfg.N := Mem.AgreeBelow.buffer?_eq hsrc
  obtain rfl : buf = buf' := Option.some.inj (hbuf.symm.trans (hread.trans hbuf'))
  obtain rfl : w = w' := Option.some.inj (hw.symm.trans hw')
  have hend : LayersAgree t t' := (layersAgree_atFirstLayer hcfg buf w).runPhases hrun hrun'
  have hkeep : t.cfg = s.cfg := (runPhases_keeps hrun).1
  exact hend.dst_agree i (hkeep ▸ hi)

end Sys2Proof.Machine

/-!
The state after reset (spec/10_state.md R40, R41): what a read of `CFG` and of `CMD` answers, then R40's list.
-/

namespace Sys2Proof.Machine

/-- R25, R28: `CFG` may be read at any time, and reads as the word of the build. -/
@[simp] theorem readTarget_cfg (s : State) : readTarget .cfg s = .next (s.give (cfgWord s.cfg)) := rfl

/-- R24: `CMD` has no storage and reads as 0 while no command runs. -/
theorem readTarget_cmd_of_not_busy {s : State} (h : s.status.busy = false) :
    readTarget .cmd s = .next (s.give 0) := by
  simp [readTarget, h]

@[simp] theorem statusWord_clear : statusWord ⟨false, false⟩ = 0 := rfl

/-- Settles O35, from what `State.resetOf` holds in each field and what a read of `CFG` and `CMD` answers. -/
theorem resetLeavesIdleAndUnwritten : Obligations.ResetLeavesIdleAndUnwritten := by
  intro c s
  have hcmd : readTarget .cmd s = .next (s.give 0) := readTarget_cmd_of_not_busy rfl
  have hunwritten : ∀ i, Mem.get? s.src i = none ∧ Mem.get? s.dst i = none :=
    fun i => ⟨Mem.get?_nil i, Mem.get?_nil i⟩
  exact ⟨statusWord_clear, State.resetOf_arg0 c, State.resetOf_arg1 c, State.resetOf_arg2 c, Seq.reset_phase,
    State.resetOf_cfg c, readTarget_cfg s, hcmd, hunwritten⟩

end Sys2Proof.Machine

/-!
The packed word of a sample (spec/20_memory.md R52): both inverses and the signed halves, from the values of
Laws/Encoding.lean.
-/

namespace Sys2Proof

/-- The signed value of a component (00_scope.md R13), from its unsigned one. -/
theorem Half.toInt_eq_ite (x : Half) :
    x.toInt = if x.toNat < 32768 then (x.toNat : Int) else x.toNat - 65536 := by
  rw [BitVec.toInt_eq_toNat_cond]
  split <;> split <;> omega

/-- The unsigned value of a component is its signed value modulo 2^16. -/
theorem Half.toInt_emod (x : Half) : x.toInt % 65536 = x.toNat := by
  rw [Half.toInt_eq_ite]
  split <;> omega

namespace Machine

@[simp] theorem unpack_pack (c : Sample) : unpack (pack c) = c := by
  have hre : (unpack (pack c)).re = c.re := BitVec.eq_of_toNat_eq (by rw [toNat_unpack_re, toNat_pack]; omega)
  have him : (unpack (pack c)).im = c.im := BitVec.eq_of_toNat_eq (by rw [toNat_unpack_im, toNat_pack]; omega)
  exact congrArg₂ Sample.mk hre him

@[simp] theorem pack_unpack (w : Word) : pack (unpack w) = w :=
  BitVec.eq_of_toNat_eq (by rw [toNat_pack, toNat_unpack_re, toNat_unpack_im]; omega)

/-- Settles O4, from the values of the two halves of a packed word. -/
theorem packAndUnpackAreInverse : Obligations.PackAndUnpackAreInverse := by
  refine ⟨unpack_pack, pack_unpack, fun c => ?_, fun w => ⟨?_, ?_⟩⟩
  · rw [toNat_pack, Half.toInt_emod, Half.toInt_emod]
    omega
  · simp only [Half.toInt_eq_ite, toNat_unpack_re, Int.natCast_emod, Nat.cast_ofNat]
  · simp only [Half.toInt_eq_ite, toNat_unpack_im, Int.natCast_ediv, Nat.cast_ofNat]

end Machine

end Sys2Proof

/-!
The host windows (spec/20_memory.md R54, R55): what a legal access does at the target it reaches, then the two sample
windows entry by entry.
-/

namespace Sys2Proof

/-- The conditions of R55 and R60 on the address map, each by itself. -/
theorem Config.mapOk_iff (c : Config) :
    c.mapOk = true ↔
      (c.regBase % 4 = 0 ∧ c.srcBase % 4 = 0 ∧ c.dstBase % 4 = 0) ∧ c.windowsDisjoint = true := by
  simp [Config.mapOk, Config.basesAligned, and_assoc]

namespace Machine

/-! ### Legal accesses -/

theorem accessOk_iff (a size : Nat) : accessOk a size = true ↔ size = 4 ∧ a % 4 = 0 := by
  simp [accessOk]

/-- A step with a legal write pending is that write at its target. -/
theorem step_write_of_target {s : State} {rest : List HostOp} {a : Nat} {w : Word} {t : Target}
    (hp : s.pending = .write a 4 w :: rest) (ha : a % 4 = 0) (ht : targetAt s.cfg a = some t) :
    step s = writeTarget t w (s.withPending rest) := by
  rw [step_of_action hp]
  simp [hostAction, busWrite, (accessOk_iff a 4).2 ⟨rfl, ha⟩, ht]

/-- A step with a legal read pending is that read of its target. -/
theorem step_read_of_target {s : State} {rest : List HostOp} {a : Nat} {t : Target}
    (hp : s.pending = .read a 4 :: rest) (ha : a % 4 = 0) (ht : targetAt s.cfg a = some t) :
    step s = readTarget t (s.withPending rest) := by
  rw [step_of_action hp]
  simp [hostAction, busRead, (accessOk_iff a 4).2 ⟨rfl, ha⟩, ht]

/-- Two steps that both answer are a run of two steps. -/
theorem runSteps_two {s t u : State} (h : step s = .next t) (h' : step t = .next u) : runSteps 2 s = .next u := by
  simp [runSteps, Host.Core.run, core, h, h']

/-! ### The sample windows -/

section SampleWindows

variable {s : State} {rest : List HostOp} {w : Word} {x : Sample} {i : Nat}
variable (hmap : s.cfg.mapOk = true) (hbusy : s.status.busy = false) (hi : i < s.cfg.N)
include hmap hbusy hi

theorem step_write_src (hp : s.pending = .write (s.cfg.srcBase + 4 * i) 4 w :: rest) :
    step s = .next { s with src := Mem.set s.src i (unpack w), pending := rest } := by
  obtain ⟨⟨-, hsrc, -⟩, hdisj⟩ := (Config.mapOk_iff _).1 hmap
  rw [step_write_of_target hp (by omega) (targetAt_src hdisj hi)]
  simp [writeTarget, hbusy, State.withPending]

theorem step_write_dst (hp : s.pending = .write (s.cfg.dstBase + 4 * i) 4 w :: rest) :
    step s = .next { s with dst := Mem.set s.dst i (unpack w), pending := rest } := by
  obtain ⟨⟨-, -, hdst⟩, hdisj⟩ := (Config.mapOk_iff _).1 hmap
  rw [step_write_of_target hp (by omega) (targetAt_dst hdisj hi)]
  simp [writeTarget, hbusy, State.withPending]

theorem step_read_src (hx : Mem.get? s.src i = some x) (hp : s.pending = .read (s.cfg.srcBase + 4 * i) 4 :: rest) :
    step s = .next { s with pending := rest, rdata := pack x :: s.rdata } := by
  obtain ⟨⟨-, hsrc, -⟩, hdisj⟩ := (Config.mapOk_iff _).1 hmap
  rw [step_read_of_target hp (by omega) (targetAt_src hdisj hi)]
  simp [readTarget, readSample, hbusy, hx, State.withPending, State.give]

theorem step_read_dst (hx : Mem.get? s.dst i = some x) (hp : s.pending = .read (s.cfg.dstBase + 4 * i) 4 :: rest) :
    step s = .next { s with pending := rest, rdata := pack x :: s.rdata } := by
  obtain ⟨⟨-, -, hdst⟩, hdisj⟩ := (Config.mapOk_iff _).1 hmap
  rw [step_read_of_target hp (by omega) (targetAt_dst hdisj hi)]
  simp [readTarget, readSample, hbusy, hx, State.withPending, State.give]

theorem runSteps_write_read_src
    (hp : s.pending = .write (s.cfg.srcBase + 4 * i) 4 w :: .read (s.cfg.srcBase + 4 * i) 4 :: rest) :
    runSteps 2 s =
      .next { s with src := Mem.set s.src i (unpack w), pending := rest, rdata := w :: s.rdata } := by
  have hwrite := step_write_src hmap hbusy hi hp
  have hread := step_read_src hmap hbusy hi (rest := rest)
    (s := { s with src := Mem.set s.src i (unpack w), pending := .read (s.cfg.srcBase + 4 * i) 4 :: rest })
    (Mem.get?_set_same s.src i (unpack w)) rfl
  rw [pack_unpack] at hread
  exact runSteps_two hwrite hread

theorem runSteps_write_read_dst
    (hp : s.pending = .write (s.cfg.dstBase + 4 * i) 4 w :: .read (s.cfg.dstBase + 4 * i) 4 :: rest) :
    runSteps 2 s =
      .next { s with dst := Mem.set s.dst i (unpack w), pending := rest, rdata := w :: s.rdata } := by
  have hwrite := step_write_dst hmap hbusy hi hp
  have hread := step_read_dst hmap hbusy hi (rest := rest)
    (s := { s with dst := Mem.set s.dst i (unpack w), pending := .read (s.cfg.dstBase + 4 * i) 4 :: rest })
    (Mem.get?_set_same s.dst i (unpack w)) rfl
  rw [pack_unpack] at hread
  exact runSteps_two hwrite hread

end SampleWindows

/-- Settles O47: each access is one `Mem.set` or `Mem.get?` of the entry, and a word read back is `pack (unpack w)`. -/
theorem hostWindowsHoldWholeSamples : Obligations.HostWindowsHoldWholeSamples := by
  intro s rest w x i hmap hbusy hi
  have stored (m : Mem) : Mem.get? (Mem.set m i (unpack w)) i = some (unpack w) ∧
      ∀ k, k ≠ i → Mem.get? (Mem.set m i (unpack w)) k = Mem.get? m k :=
    ⟨Mem.get?_set_same m i _, fun _ => Mem.get?_set_other m _⟩
  exact ⟨fun hp => ⟨_, step_write_src hmap hbusy hi hp, stored s.src⟩,
    fun hp => ⟨_, step_write_dst hmap hbusy hi hp, stored s.dst⟩,
    fun hp => ⟨_, runSteps_write_read_src hmap hbusy hi hp, stored s.src⟩,
    fun hp => ⟨_, runSteps_write_read_dst hmap hbusy hi hp, stored s.dst⟩,
    step_read_src hmap hbusy hi, step_read_dst hmap hbusy hi⟩

end Machine

end Sys2Proof

/-!
The decoder on 32-bit words (spec/30_encoding.md R80, R81, R83, R85): a word decodes to a command exactly when it is
that command's word, and exactly when a row of the opcode table for that command is hit.
-/

namespace Sys2Proof

/-! ### The decoder -/

theorem Word.rsv_append_op (w : Word) : w.rsv ++ w.op = w := by
  apply BitVec.eq_of_toNat_eq
  rw [toNat_append_eq, Word.toNat_rsv, Word.toNat_op]
  omega

@[simp] theorem op_decodeOp (x : BitVec 2) : (decodeOp x).op = x := by
  revert x
  decide

theorem decode_of_reserved {w : Word} (h : w.toNat / 4 ≠ 0) : decode w = .error .reservedCommand :=
  if_neg (mt w.rsv_eq_zero_iff.1 h)

/-- The laws of the single commands (Laws/PerInstr.lean), put together. -/
theorem encodeDecode_statement : ∀ i : Instr, Laws.EncodeDecode.Statement i
  | .warmup => Laws.EncodeDecode.warmup
  | .reorder => Laws.EncodeDecode.reorder
  | .runlayer => Laws.EncodeDecode.runlayer
  | .transform => Laws.EncodeDecode.transform

@[simp] theorem decode_encode (i : Instr) : decode (encode i) = .ok i :=
  let ⟨_, _, hword, _⟩ := encodeDecode_statement i
  hword

theorem encode_injective : Function.Injective encode := fun i j h =>
  Except.ok.inj (by rw [← decode_encode i, h, decode_encode j])

/-- The encoder's word is the only one that decodes to a command: `RSV` is 0 and `OP` is the command's. -/
theorem decode_eq_ok_iff {w : Word} {i : Instr} : decode w = .ok i ↔ w = encode i := by
  constructor
  · intro h
    unfold decode at h
    split at h
    next hrsv =>
      cases h
      rw [encode, op_decodeOp, ← hrsv, Word.rsv_append_op]
    next => cases h
  · rintro rfl
    exact decode_encode i

theorem toNat_encode (i : Instr) : (encode i).toNat = i.op.toNat := by
  rw [encode, toNat_append_eq]
  simp

/-- A word with no reserved bit set decodes to the command whose `OP` it carries. -/
theorem decode_of_toNat_mod {w : Word} (i : Instr) (hrsv : w.toNat / 4 = 0) (hop : w.toNat % 4 = i.op.toNat) :
    decode w = .ok i := by
  refine decode_eq_ok_iff.2 (BitVec.eq_of_toNat_eq ?_)
  rw [toNat_encode, ← hop]
  omega

/-! ### The rows of the opcode table -/

theorem opcodeRows_mask_pattern : ∀ r ∈ opcodeRows, r.mask = 0xFFFFFFFF ∧ r.pattern = encode r.instr := by
  decide

theorem exists_opcodeRow (i : Instr) : ∃ r ∈ opcodeRows, r.instr = i := by
  cases i <;> decide

/-- The mask keeps every bit, so a row is hit by its command's word alone. -/
theorem OpcodeRow.hits_iff {r : OpcodeRow} (hr : r ∈ opcodeRows) (w : Word) :
    r.hits w = true ↔ w = encode r.instr := by
  obtain ⟨hmask, hpattern⟩ := opcodeRows_mask_pattern r hr
  have hkeep : w &&& 0xFFFFFFFF = w := BitVec.and_allOnes
  rw [OpcodeRow.hits, hmask, hpattern, hkeep, decide_eq_true_iff]

theorem OpcodeRow.eq_of_instr_eq : ∀ r ∈ opcodeRows, ∀ r' ∈ opcodeRows, r.instr = r'.instr → r = r' := by
  decide

theorem decode_eq_ok_iff_row (w : Word) (i : Instr) :
    decode w = .ok i ↔ ∃ r ∈ opcodeRows, r.hits w = true ∧ r.instr = i := by
  rw [decode_eq_ok_iff]
  constructor
  · intro h
    obtain ⟨r, hr, rfl⟩ := exists_opcodeRow i
    exact ⟨r, hr, (OpcodeRow.hits_iff hr w).2 h, rfl⟩
  · rintro ⟨r, hr, hit, rfl⟩
    exact (OpcodeRow.hits_iff hr w).1 hit

theorem opcodeRow_unique (w : Word) {r r' : OpcodeRow} (hr : r ∈ opcodeRows) (hr' : r' ∈ opcodeRows)
    (hit : r.hits w = true) (hit' : r'.hits w = true) : r = r' := by
  rw [OpcodeRow.hits_iff hr] at hit
  rw [OpcodeRow.hits_iff hr'] at hit'
  exact OpcodeRow.eq_of_instr_eq r hr r' hr' (encode_injective (hit.symm.trans hit'))

/-- Settles O2: a word and a row each belong to a command exactly when they carry the encoder's word for it. -/
theorem decodingIsTotalAndSelectsByOp : Obligations.DecodingIsTotalAndSelectsByOp :=
  ⟨fun _ => ⟨decode_of_reserved, fun hrsv =>
      ⟨decode_of_toNat_mod .warmup hrsv, decode_of_toNat_mod .reorder hrsv, decode_of_toNat_mod .runlayer hrsv,
        decode_of_toNat_mod .transform hrsv⟩⟩,
    rfl, opcodeRows_mask_pattern, decode_eq_ok_iff_row, fun w _ hr _ hr' => opcodeRow_unique w hr hr'⟩

/-- Settles O1: each of the four words is the encoder's, and the decoder inverts the encoder. -/
theorem opcodeWordsDecode : Obligations.OpcodeWordsDecode :=
  ⟨decode_encode .warmup, decode_encode .reorder, decode_encode .runlayer, decode_encode .transform,
    rfl, rfl, rfl, rfl⟩

end Sys2Proof

/-!
The bit-reversal network (spec/40_reorder.md R100 to R105): bit by bit what `bitrev` gives, then `reorder` slot by slot.
-/

namespace Sys2Proof

/-- R6: as many slots as indices of `LOG2N` bits. -/
theorem Config.N_eq_two_pow (c : Config) : c.N = 2 ^ c.log2N :=
  (pow_mul 2 2 c.K).symm

namespace Machine

/-! ### The index map -/

theorem bitrev_lt (i n : Nat) : bitrev i n < 2 ^ n := by
  induction n generalizing i with
  | zero => exact Nat.one_pos
  | succ n ih =>
    have hlow : bitrev (i / 2) n < 2 ^ n := ih (i / 2)
    have htop : i % 2 * 2 ^ n ≤ 1 * 2 ^ n := Nat.mul_le_mul_right _ (by omega)
    rw [bitrev, pow_succ]
    omega

/-- R100, bit by bit, for any index: bits of `i` from `n` on do not count, and the result has none there. -/
theorem testBit_bitrev (i n j : Nat) : (bitrev i n).testBit j = (decide (j < n) && i.testBit (n - 1 - j)) := by
  induction n generalizing i j with
  | zero => simp [bitrev]
  | succ n ih =>
    rw [bitrev, Nat.mul_comm, Nat.testBit_two_pow_mul_add _ (bitrev_lt _ _)]
    obtain hj | rfl | hj := Nat.lt_trichotomy j n
    · rw [if_pos hj, ih, ← Nat.testBit_add_one, show n - 1 - j + 1 = n + 1 - 1 - j by omega]
      simp [hj, Nat.lt_succ_of_lt hj]
    · simp
    · have hzero : (i % 2).testBit (j - n) = false :=
        Nat.testBit_lt_two_pow ((Nat.mod_lt i two_pos).trans_le (Nat.le_self_pow (by omega) 2))
      simp [hzero, show ¬ j < n by omega, show ¬ j < n + 1 by omega]

theorem testBit_bitrev_of_lt (i : Nat) {n b : Nat} (hb : b < n) :
    (bitrev i n).testBit (n - 1 - b) = i.testBit b := by
  rw [testBit_bitrev, decide_eq_true (by omega : n - 1 - b < n), Bool.true_and,
    show n - 1 - (n - 1 - b) = b by omega]

/-- Two indices below `2^n` are equal when their low `n` bits are. -/
theorem eq_of_testBit_eq_below {i j n : Nat} (hi : i < 2 ^ n) (hj : j < 2 ^ n)
    (h : ∀ b, b < n → i.testBit b = j.testBit b) : i = j := by
  refine Nat.eq_of_testBit_eq fun b => ?_
  obtain hb | hb := Nat.lt_or_ge b n
  · exact h b hb
  · have hpow : 2 ^ n ≤ 2 ^ b := Nat.pow_le_pow_right two_pos hb
    rw [Nat.testBit_lt_two_pow (hi.trans_le hpow), Nat.testBit_lt_two_pow (hj.trans_le hpow)]

/-- R105 (a). -/
theorem bitrev_bitrev {i n : Nat} (hi : i < 2 ^ n) : bitrev (bitrev i n) n = i := by
  refine eq_of_testBit_eq_below (bitrev_lt _ n) hi fun b hb => ?_
  rw [testBit_bitrev, testBit_bitrev_of_lt i hb]
  simp [hb]

/-- R105 (d). -/
theorem bitrev_eq_self_iff {i n : Nat} (hi : i < 2 ^ n) :
    bitrev i n = i ↔ ∀ b, b < n → i.testBit b = i.testBit (n - 1 - b) := by
  have hbit (b : Nat) (hb : b < n) : (bitrev i n).testBit b = i.testBit (n - 1 - b) := by
    simp [testBit_bitrev, hb]
  constructor
  · intro h b hb
    rw [← hbit b hb, h]
  · intro h
    exact eq_of_testBit_eq_below (bitrev_lt i n) hi fun b hb => (hbit b hb).trans (h b hb).symm

theorem bitrev_zero_index (n : Nat) : bitrev 0 n = 0 :=
  (bitrev_eq_self_iff (Nat.two_pow_pos n)).2 fun b _ => by simp

theorem bitrev_two_pow_sub_one (n : Nat) : bitrev (2 ^ n - 1) n = 2 ^ n - 1 := by
  refine (bitrev_eq_self_iff (Nat.sub_lt (Nat.two_pow_pos n) one_pos)).2 fun b hb => ?_
  simp [Nat.testBit_two_pow_sub_one, hb, show n - 1 - b < n by omega]

/-- Settles O14, from what each bit of `bitrev` is. -/
theorem bitrevReadsBitsBackwards : Obligations.BitrevReadsBitsBackwards :=
  fun i n _ => ⟨bitrev_lt i n, fun _ hb => testBit_bitrev_of_lt i hb⟩

/-- Settles O16: bit `j` of either side is bit `n-1-j` of `i`, for `j` below `n`. -/
theorem nativeWidthDoesNotAffectBitrev : Obligations.NativeWidthDoesNotAffectBitrev := by
  intro i n W hW _
  refine Nat.eq_of_testBit_eq fun j => ?_
  have hbelow : j + (W - n) < W ↔ j < n := by omega
  have hmirror : W - 1 - (j + (W - n)) = n - 1 - j := by omega
  simp only [Nat.testBit_div_two_pow, testBit_bitrev, hbelow, hmirror]

/-! ### The source slot -/

theorem sourceSlot_lt (c : Config) (i : Nat) : sourceSlot c i < c.N :=
  c.N_eq_two_pow ▸ bitrev_lt i c.log2N

theorem sourceSlot_sourceSlot {c : Config} {i : Nat} (hi : i < c.N) : sourceSlot c (sourceSlot c i) = i :=
  bitrev_bitrev (c.N_eq_two_pow ▸ hi)

/-- R105 (b): an involution that stays below `N` permutes the slots. -/
theorem map_sourceSlot_range_perm (c : Config) : ((List.range c.N).map (sourceSlot c)).Perm (List.range c.N) := by
  have hinj : ∀ i ∈ List.range c.N, ∀ j ∈ List.range c.N, sourceSlot c i = sourceSlot c j → i = j := by
    intro i hi j hj h
    rw [← sourceSlot_sourceSlot (List.mem_range.1 hi), h, sourceSlot_sourceSlot (List.mem_range.1 hj)]
  have hsub : (List.range c.N).map (sourceSlot c) ⊆ List.range c.N := by
    simp [List.subset_def, sourceSlot_lt]
  exact (List.nodup_range.map_on hinj).subperm hsub |>.perm_of_length_le (by simp)

/-! ### The reorder of a buffer -/

theorem map_sampleAt_range (buf : List Sample) : (List.range buf.length).map (sampleAt buf) = buf :=
  List.ext_getElem (by simp) fun i _ hi => by simp [sampleAt, hi]

theorem sampleAt_reorder {c : Config} {i : Nat} (src : List Sample) (hi : i < c.N) :
    sampleAt (reorder c src) i = sampleAt src (sourceSlot c i) := by
  simp [reorder, sampleAt, hi]

/-- R105 (b). -/
theorem reorder_perm {c : Config} {buf : List Sample} (h : buf.length = c.N) : (reorder c buf).Perm buf := by
  have hslots := (map_sourceSlot_range_perm c).map (sampleAt buf)
  rwa [List.map_map, ← h, map_sampleAt_range, h] at hslots

/-- R105 (c). -/
theorem reorder_reorder {c : Config} {buf : List Sample} (h : buf.length = c.N) :
    reorder c (reorder c buf) = buf := by
  calc reorder c (reorder c buf)
      = (List.range c.N).map (sampleAt buf) := List.map_congr_left fun i hi => by
        rw [sampleAt_reorder buf (sourceSlot_lt c i), sourceSlot_sourceSlot (List.mem_range.1 hi)]
    _ = buf := h ▸ map_sampleAt_range buf

/-- R105 (e). -/
theorem sampleAt_reorder_sourceSlot {c : Config} {j : Nat} (buf : List Sample) (hj : j < c.N) :
    sampleAt (reorder c buf) (sourceSlot c j) = sampleAt buf j := by
  rw [sampleAt_reorder buf (sourceSlot_lt c j), sourceSlot_sourceSlot hj]

/-- Settles O15: the index map is an involution below `2^n`, and `reorder` moves whole samples by it. -/
theorem bitReversalAndReorderAreInvolutions : Obligations.BitReversalAndReorderAreInvolutions :=
  ⟨fun i n hi => ⟨bitrev_lt i n, bitrev_bitrev hi, bitrev_eq_self_iff hi⟩,
    fun n => ⟨bitrev_zero_index n, bitrev_two_pow_sub_one n⟩,
    fun _ buf h => ⟨reorder_perm h, reorder_reorder h, fun _ hj => sampleAt_reorder_sourceSlot buf hj⟩⟩

/-! ### The copies one by one -/

/-- A slot holds its copy as soon as it has had its turn, however often, and what it held before until then. -/
theorem getElem?_copyInOrder (c : Config) (order : List Nat) (src dst : List Sample) {k : Nat} (hk : k < dst.length) :
    (copyInOrder c order src dst)[k]? = if k ∈ order then some (sampleAt src (sourceSlot c k)) else dst[k]? := by
  induction order generalizing dst with
  | nil => simp [copyInOrder]
  | cons i rest ih =>
    have hstep : copyInOrder c (i :: rest) src dst = copyInOrder c rest src (copyOne c src dst i) := rfl
    rw [hstep, ih _ (by simpa using hk), copyOne, List.getElem?_set]
    by_cases hmem : k ∈ rest
    · simp [hmem]
    · by_cases hik : i = k
      · subst hik; simp [hk]
      · simp [hmem, hik, Ne.symm hik]

@[simp] theorem copyInOrder_length (c : Config) (order : List Nat) (src dst : List Sample) :
    (copyInOrder c order src dst).length = dst.length := by
  induction order generalizing dst with
  | nil => rfl
  | cons i rest ih => exact (ih (copyOne c src dst i)).trans (copyOne_length ..)

/-- Settles O17: every slot has its turn, and no copy reads the destination. -/
theorem copiesMayBeDoneInAnyOrder : Obligations.CopiesMayBeDoneInAnyOrder := by
  intro c order src dst horder hdst
  refine List.ext_getElem? fun k => ?_
  obtain hk | hk := Nat.lt_or_ge k c.N
  · have hturn : k ∈ order := horder.mem_iff.2 (List.mem_range.2 hk)
    rw [getElem?_copyInOrder c order src dst (hdst ▸ hk), if_pos hturn]
    simp [reorder, hk]
  · rw [List.getElem?_eq_none (by simpa [hdst] using hk), List.getElem?_eq_none (by simpa using hk)]

end Machine

end Sys2Proof

/-!
Commands as acceptance and phases (spec/30_encoding.md R84; spec/60_exceptions.md R184): acceptance refuses a command
for each of its reasons and for no other, and no phase of an accepted command is refused.
-/

namespace Sys2Proof

theorem Config.K_pos_of_cfgOk {c : Config} (h : c.cfgOk = true) : 0 < c.K := by
  simp only [Config.cfgOk, Config.sizeOk, Bool.and_eq_true, decide_eq_true_eq] at h
  obtain ⟨⟨⟨hK, -⟩, -⟩, -⟩ := h
  exact hK

/-- What `CfgOK` (00_scope.md R9) says of one layer: it has an entry of `SCHED`, from which its twiddles are in reach. -/
theorem Config.exists_sched_of_cfgOk {c : Config} (h : c.cfgOk = true) {l : Nat} (hl : l < c.K) :
    ∃ w, c.sched[l]? = some w ∧ Machine.reachOk c w.toNat (4 ^ l) = true := by
  simp only [Config.cfgOk, Config.reachOk, Bool.and_eq_true, List.all_eq_true, List.mem_range] at h
  obtain ⟨-, hreach⟩ := h
  specialize hreach l hl
  cases hw : c.sched[l]? with
  | none => simp [hw] at hreach
  | some w => exact ⟨w, rfl, by simpa [hw, Machine.reachOk] using hreach⟩

namespace Machine

/-! ### The reasons to refuse a command -/

theorem commandViolation_warmup_iff {s : State} {r : Refusal} :
    commandViolation .warmup s r = true ↔ r = .busyWrite ∧ s.status.busy = true := by
  cases r <;> simp [commandViolation]

/-- The reasons of R107. -/
theorem commandViolation_reorder_iff {s : State} {r : Refusal} :
    commandViolation .reorder s r = true ↔
      (r = .busyWrite ∧ s.status.busy = true) ∨
        (r = .unwrittenSample ∧ Mem.allWritten s.src s.cfg.N = false) := by
  cases r <;> simp [commandViolation]

theorem strideOk_iff (stride : Nat) : strideOk stride = true ↔ 4 ≤ stride ∧ stride % 4 = 0 := by
  simp [strideOk]

/-- The reasons of R141 (b) and (c). -/
theorem commandViolation_badOperand_iff {s : State} :
    commandViolation .runlayer s .badOperand = true ↔
      (strideOk s.opStride && groupsOk s.cfg s.opStride s.opGroups) = false := by
  simp only [commandViolation, strideOk, groupsOk, decide_true, Bool.true_and, decide_eq_true_iff,
    Bool.and_eq_false_iff, decide_eq_false_iff_not]
  omega

/-- The reason of R141 (d): for a legal stride the last twiddle index is the same in integers and in naturals. -/
theorem commandViolation_badIndex_iff {s : State} (h : strideOk s.opStride = true) :
    commandViolation .runlayer s .badIndex = true ↔ reachOk s.cfg s.opTws (s.opStride / 4) = false := by
  have hstride := (strideOk_iff _).1 h
  simp only [commandViolation, reachOk, decide_true, Bool.true_and, decide_eq_true_iff, decide_eq_false_iff_not]
  omega

/-- The reasons of R167. -/
theorem commandViolation_transform_iff {s : State} {r : Refusal} :
    commandViolation .transform s r = true ↔
      (r = .busyWrite ∧ s.status.busy = true) ∨
        (r = .unwrittenSample ∧ Mem.allWritten s.src s.cfg.N = false) ∨
          (r = .badConfig ∧ s.cfg.cfgOk = false) := by
  cases r <;> simp [commandViolation]

/-! ### Acceptance -/

theorem violation_of_execWarmup_refused {s : State} {r : Refusal} (h : execWarmup s = .refused r) :
    commandViolation .warmup s r = true := by
  unfold execWarmup at h
  split at h <;> cases h
  next hbusy => exact commandViolation_warmup_iff.2 ⟨rfl, hbusy⟩

theorem violation_of_acceptReorder_refused {s : State} {r : Refusal} (h : acceptReorder s = .refused r) :
    commandViolation .reorder s r = true := by
  unfold acceptReorder at h
  rw [commandViolation_reorder_iff]
  split at h
  next hbusy => cases h; exact .inl ⟨rfl, hbusy⟩
  next =>
    split at h <;> cases h
    next hsrc => exact .inr ⟨rfl, Bool.eq_false_of_not_eq_true hsrc⟩

theorem violation_of_acceptRunlayer_refused {s : State} {r : Refusal} (h : acceptRunlayer s = .refused r) :
    commandViolation .runlayer s r = true := by
  unfold acceptRunlayer at h
  split at h
  next hbusy => cases h; exact hbusy
  next =>
    split at h
    next hop => cases h; exact commandViolation_badOperand_iff.2 (by rwa [Bool.not_eq_true'] at hop)
    next hop =>
      obtain ⟨hstride, -⟩ : strideOk s.opStride = true ∧ groupsOk s.cfg s.opStride s.opGroups = true := by
        simpa using hop
      split at h
      next hreach => cases h; exact (commandViolation_badIndex_iff hstride).2 (by simpa using hreach)
      next =>
        split at h <;> cases h
        next hdst => simpa [commandViolation] using hdst

theorem violation_of_acceptTransform_refused {s : State} {r : Refusal} (h : acceptTransform s = .refused r) :
    commandViolation .transform s r = true := by
  unfold acceptTransform at h
  rw [commandViolation_transform_iff]
  split at h
  next hbusy => cases h; exact .inl ⟨rfl, hbusy⟩
  next =>
    split at h
    next hcfg => cases h; exact .inr (.inr ⟨rfl, by simpa using hcfg⟩)
    next =>
      split at h <;> cases h
      next hsrc => exact .inr (.inl ⟨rfl, by simpa using hsrc⟩)

theorem violation_of_accept_refused {i : Instr} {s : State} {r : Refusal} (h : accept i s = .refused r) :
    commandViolation i s r = true :=
  match i with
  | .warmup => violation_of_execWarmup_refused h
  | .reorder => violation_of_acceptReorder_refused h
  | .runlayer => violation_of_acceptRunlayer_refused h
  | .transform => violation_of_acceptTransform_refused h

theorem no_violation_of_accept_next {i : Instr} {s a : State} (h : accept i s = .next a) (r : Refusal) :
    commandViolation i s r = false := by
  rw [← Bool.not_eq_true]
  cases i with
  | warmup =>
    obtain ⟨hbusy, -⟩ := execWarmup_eq_next_iff.1 h
    simp [commandViolation_warmup_iff, hbusy]
  | reorder =>
    obtain ⟨hbusy, hsrc, -⟩ := acceptReorder_eq_next_iff.1 h
    simp [commandViolation_reorder_iff, hbusy, hsrc]
  | runlayer =>
    obtain ⟨hbusy, hstride, hgroups, hreach, hdst, -⟩ := acceptRunlayer_eq_next_iff.1 h
    cases r with
    | badOperand => simp [commandViolation_badOperand_iff, hstride, hgroups]
    | badIndex => simp [commandViolation_badIndex_iff hstride, hreach]
    | _ => simp [commandViolation, hbusy, hdst]
  | transform =>
    obtain ⟨hbusy, hcfg, hsrc, -⟩ := acceptTransform_eq_next_iff.1 h
    simp [commandViolation_transform_iff, hbusy, hcfg, hsrc]

/-- No outcome is a fault (60_exceptions.md R180). -/
theorem outcome_next_or_refused (o : Host.Outcome State Fault Refusal) :
    (∃ t, o = .next t) ∨ ∃ r, o = .refused r := by
  cases o with
  | next t => exact .inl ⟨t, rfl⟩
  | fault r => cases r
  | refused r => exact .inr ⟨r, rfl⟩

/-- R84: a command is accepted exactly when no reason applies. -/
theorem accept_iff_no_violation (i : Instr) (s : State) :
    (∃ a, accept i s = .next a) ↔ ∀ r, commandViolation i s r = false := by
  refine ⟨fun ⟨_, h⟩ => no_violation_of_accept_next h, fun h => ?_⟩
  refine (outcome_next_or_refused (accept i s)).resolve_right ?_
  rintro ⟨r, hr⟩
  exact Bool.false_ne_true ((h r).symm.trans (violation_of_accept_refused hr))

/-! ### The phases of an accepted command -/

theorem allWritten_storeDst {s : State} {buf : List Sample} (h : buf.length = s.cfg.N) :
    Mem.allWritten (s.storeDst buf).dst s.cfg.N = true :=
  (Mem.allWritten_iff_buffer _ _).2 ⟨buf, h ▸ Mem.buffer?_store s.dst buf⟩

theorem reorderPhase_of_buffer {s : State} {buf : List Sample} (h : Mem.buffer? s.src s.cfg.N = some buf) :
    reorderPhase s = afterReorder (s.storeDst (reorder s.cfg buf)) := by
  rw [reorderPhase, copyPhase_eq_next_iff.2 ⟨buf, h, rfl⟩, andThen_next]

/-- After the copies of a state that was ready for them, a first layer or completion. -/
theorem reorderPhase_of_seqOk {s : State} (hp : s.seq.phase = .reorder) (h : seqOk s) :
    ∃ t, reorderPhase s = .next t ∧ seqOk t := by
  simp only [seqOk, hp] at h
  obtain ⟨hsrc, hchain⟩ := h
  obtain ⟨buf, hbuf⟩ := (Mem.allWritten_iff_buffer _ _).1 hsrc
  rw [reorderPhase_of_buffer hbuf]
  cases hc : s.seq.chain with
  | false => exact ⟨_, afterReorder_eq_next_iff.2 (.inr ⟨hc, rfl⟩), trivial⟩
  | true =>
    obtain ⟨hcfg, -⟩ := hchain hc
    have hK : 0 < s.cfg.K := Config.K_pos_of_cfgOk hcfg
    obtain ⟨w, hw, -⟩ := Config.exists_sched_of_cfgOk hcfg hK
    exact ⟨_, afterReorder_eq_next_iff.2 (.inl ⟨hc, w, hw, rfl⟩), allWritten_storeDst (reorder_length ..),
      fun _ => ⟨hcfg, hK, rfl, hw⟩, nofun⟩

/-- After a layer of a state that was ready for it, the next layer or completion. -/
theorem layerPhase_of_seqOk {s : State} (hp : s.seq.phase = .layer) (h : seqOk s) :
    ∃ t, layerPhase s = .next t ∧ seqOk t := by
  simp only [seqOk, hp] at h
  obtain ⟨hdst, hchain, hsingle⟩ := h
  obtain ⟨buf, hbuf⟩ := (Mem.allWritten_iff_buffer _ _).1 hdst
  have hlen : buf.length = s.cfg.N := ((Mem.buffer?_eq_some_iff _ _ _).1 hbuf).1
  have hreach : reachOk s.cfg s.seq.tws.toNat s.seq.m = true := by
    cases hc : s.seq.chain with
    | false => exact (hsingle hc).2.2
    | true =>
      obtain ⟨hcfg, hi, hm, htws⟩ := hchain hc
      obtain ⟨w, hw, hreach⟩ := Config.exists_sched_of_cfgOk hcfg hi
      obtain rfl : s.seq.tws = w := Option.some.inj (htws.symm.trans hw)
      rwa [hm]
  have hwork := layerWorkPhase_eq_next_iff.2 ⟨hreach, buf, hbuf, rfl⟩
  rw [layerPhase, hwork, andThen_next]
  by_cases hmore : s.seq.chain = true ∧ 4 * s.seq.m < s.cfg.N
  · obtain ⟨hc, hmN⟩ := hmore
    obtain ⟨hcfg, -, hm, -⟩ := hchain hc
    have hnext : 4 * s.seq.m = 4 ^ (s.seq.i + 1) := by rw [hm, pow_succ']
    have hi : s.seq.i + 1 < s.cfg.K := (Nat.pow_lt_pow_iff_right (by decide)).1 (hnext ▸ hmN)
    obtain ⟨w, hw, -⟩ := Config.exists_sched_of_cfgOk hcfg hi
    exact ⟨_, afterLayer_eq_next_iff.2 (.inl ⟨hc, hmN, w, hw, rfl⟩),
      allWritten_storeDst ((layer_length ..).trans hlen), fun _ => ⟨hcfg, hi, hnext, hw⟩, nofun⟩
  · exact ⟨_, afterLayer_eq_next_iff.2 (.inr ⟨hmore, rfl⟩), trivial⟩

theorem advance_of_reorder {s : State} (h : s.seq.phase = .reorder) : advance s = reorderPhase s := by
  simp [advance, h]

theorem advance_of_layer {s : State} (h : s.seq.phase = .layer) : advance s = layerPhase s := by
  simp [advance, h]

/-- No phase is refused in a state that is ready for it, and it leaves the state ready for what follows. -/
theorem advance_of_seqOk {s : State} (h : seqOk s) : ∃ t, advance s = .next t ∧ seqOk t := by
  cases hp : s.seq.phase with
  | idle => exact ⟨s, advance_of_idle hp, h⟩
  | reorder => exact advance_of_reorder hp ▸ reorderPhase_of_seqOk hp h
  | layer => exact advance_of_layer hp ▸ layerPhase_of_seqOk hp h

theorem runPhases_of_seqOk {s : State} (h : seqOk s) (n : Nat) : ∃ t, runPhases n s = .next t ∧ seqOk t := by
  induction n generalizing s with
  | zero => exact ⟨s, rfl, h⟩
  | succ n ih =>
    obtain ⟨u, hu, hready⟩ := advance_of_seqOk h
    obtain ⟨t, ht, hend⟩ := ih hready
    exact ⟨t, by simp [hu, ht], hend⟩

/-- Acceptance leaves the state ready for the command's first phase. -/
theorem seqOk_of_accept {i : Instr} {s a : State} (hi : i ≠ .warmup) (h : accept i s = .next a) : seqOk a := by
  cases i with
  | warmup => exact absurd rfl hi
  | reorder =>
    obtain ⟨-, hsrc, rfl⟩ := acceptReorder_eq_next_iff.1 h
    exact ⟨hsrc, nofun⟩
  | runlayer =>
    obtain ⟨-, hstride, hgroups, hreach, hdst, rfl⟩ := acceptRunlayer_eq_next_iff.1 h
    obtain ⟨h4, hmod⟩ := (strideOk_iff _).1 hstride
    have hm : 4 * (s.opStride / 4) = s.opStride := by omega
    have hN : s.opGroups * s.opStride = s.cfg.N := of_decide_eq_true hgroups
    refine ⟨hdst, nofun, fun _ => ⟨?_, ?_, hreach⟩⟩
    · show 1 ≤ s.opStride / 4
      omega
    · show s.cfg.N % (4 * (s.opStride / 4)) = 0
      rw [hm, ← hN, Nat.mul_mod_left]
  | transform =>
    obtain ⟨-, hcfg, hsrc, rfl⟩ := acceptTransform_eq_next_iff.1 h
    exact ⟨hsrc, fun _ => ⟨hcfg, rfl, rfl⟩⟩

/-! ### A command as acceptance and phases -/

theorem andThen_congr {o : Host.Outcome State Fault Refusal} {f g : State → Host.Outcome State Fault Refusal}
    (h : ∀ a, o = .next a → f a = g a) : andThen o f = andThen o g := by
  cases o with
  | next a => exact h a rfl
  | fault r => rfl
  | refused r => rfl

theorem andThen_runPhases_zero (o : Host.Outcome State Fault Refusal) : andThen o (runPhases 0) = o := by
  cases o <;> rfl

theorem runPhases_one (s : State) : runPhases 1 s = advance s := andThen_runPhases_zero (advance s)

/-- R11: the whole command is its acceptance followed by its phases. -/
theorem exec_eq_accept_runPhases (i : Instr) (s : State) :
    exec i s = andThen (accept i s) (runPhases (phasesOf s.cfg i)) := by
  cases i with
  | warmup => exact (andThen_runPhases_zero (execWarmup s)).symm
  | reorder =>
    refine andThen_congr fun a ha => ?_
    have hp : a.seq.phase = .reorder := by
      obtain ⟨-, -, rfl⟩ := acceptReorder_eq_next_iff.1 ha
      rfl
    exact (advance_of_reorder hp).symm.trans (runPhases_one a).symm
  | runlayer =>
    refine andThen_congr fun a ha => ?_
    have hp : a.seq.phase = .layer := by
      obtain ⟨-, -, -, -, -, rfl⟩ := acceptRunlayer_eq_next_iff.1 ha
      rfl
    exact (advance_of_layer hp).symm.trans (runPhases_one a).symm
  | transform => rfl

/-- An accepted command runs to its end: none of its phases is refused. -/
theorem runPhases_of_accept {i : Instr} {s a : State} (h : accept i s = .next a) :
    ∃ t, runPhases (phasesOf s.cfg i) a = .next t := by
  by_cases hi : i = .warmup
  · subst hi; exact ⟨a, rfl⟩
  · obtain ⟨t, ht, -⟩ := runPhases_of_seqOk (seqOk_of_accept hi h) (phasesOf s.cfg i)
    exact ⟨t, ht⟩

theorem exec_next_iff_accept (i : Instr) (s : State) :
    (∃ t, exec i s = .next t) ↔ ∃ a, accept i s = .next a := by
  rw [exec_eq_accept_runPhases]
  constructor
  · rintro ⟨t, ht⟩
    obtain ⟨a, ha, -⟩ := andThen_eq_next_iff.1 ht
    exact ⟨a, ha⟩
  · rintro ⟨a, ha⟩
    rw [ha]
    exact runPhases_of_accept ha

theorem exec_refused_iff_accept {i : Instr} {s : State} {r : Refusal} :
    exec i s = .refused r ↔ accept i s = .refused r := by
  rw [exec_eq_accept_runPhases, andThen_eq_refused_iff]
  refine or_iff_left ?_
  rintro ⟨a, ha, hr⟩
  obtain ⟨t, ht⟩ := runPhases_of_accept ha
  cases ht.symm.trans hr

theorem violation_of_exec_refused {i : Instr} {s : State} {r : Refusal} (h : exec i s = .refused r) :
    commandViolation i s r = true :=
  violation_of_accept_refused (exec_refused_iff_accept.1 h)

theorem exec_reorder_next_iff (s : State) :
    (∃ t, exec .reorder s = .next t) ↔ s.status.busy = false ∧ Mem.allWritten s.src s.cfg.N = true := by
  rw [exec_next_iff_accept]
  simp [accept, acceptReorder_eq_next_iff]

theorem exec_transform_next_iff (s : State) :
    (∃ t, exec .transform s = .next t) ↔
      s.status.busy = false ∧ Mem.allWritten s.src s.cfg.N = true ∧ s.cfg.cfgOk = true := by
  rw [exec_next_iff_accept]
  simp [accept, acceptTransform_eq_next_iff, and_comm]

/-- Settles O30: acceptance is refused exactly on a violation, and nothing after it is refused. -/
theorem commandRefusedExactlyOnViolation : Obligations.CommandRefusedExactlyOnViolation :=
  ⟨fun i s => ⟨(exec_next_iff_accept i s).trans (accept_iff_no_violation i s), fun _ => violation_of_exec_refused⟩,
    fun s => ⟨exec_reorder_next_iff s, fun _ h => commandViolation_reorder_iff.1 (violation_of_exec_refused h),
      exec_transform_next_iff s, fun _ h => commandViolation_transform_iff.1 (violation_of_exec_refused h)⟩⟩

/-! ### `REORDER` -/

theorem commandFrame_accept (s : State) (q : Seq) : CommandFrame s (s.accept q) := by
  constructor <;> rfl

theorem commandFrame_complete_storeDst_accept (s : State) (q : Seq) (buf : List Sample) :
    CommandFrame s ((s.accept q).storeDst buf).complete := by
  constructor <;> rfl

/-- A buffer of `N` samples stored whole is what the `N` entries hold, and nothing beyond them changes. -/
theorem dstBecomes_of_store {s t : State} {buf : List Sample} (hdst : t.dst = Mem.store s.dst buf)
    (h : buf.length = s.cfg.N) : DstBecomes s t buf := by
  refine ⟨fun i hi => ?_, fun i hi => ?_⟩
  · rw [hdst, Mem.get?_store, if_pos (h ▸ hi)]
  · rw [hdst, Mem.get?_store, if_neg (by omega)]

/-- What the whole `REORDER` answers (R106): its acceptance, the copies, completion. -/
theorem exec_reorder_of_accept {s : State} {q : Seq} {buf : List Sample} (h : acceptReorder s = .next (s.accept q))
    (hchain : q.chain = false) (hbuf : Mem.buffer? s.src s.cfg.N = some buf) :
    exec .reorder s = .next ((s.accept q).storeDst (reorder s.cfg buf)).complete := by
  calc exec .reorder s
      = andThen (acceptReorder s) reorderPhase := rfl
    _ = reorderPhase (s.accept q) := by rw [h, andThen_next]
    _ = afterReorder ((s.accept q).storeDst (reorder s.cfg buf)) := reorderPhase_of_buffer hbuf
    _ = .next ((s.accept q).storeDst (reorder s.cfg buf)).complete :=
      afterReorder_eq_next_iff.2 (.inr ⟨hchain, rfl⟩)

/-- Settles O18: acceptance, the copies and completion, of which only the copies touch `DST`. -/
theorem reorderCompletesWithBitReversedCopy : Obligations.ReorderCompletesWithBitReversedCopy := by
  intro s buf hbusy hbuf
  have haccept : accept .reorder s = .next (s.accept { s.seq with phase := .reorder, chain := false }) :=
    acceptReorder_eq_next_iff.2 ⟨hbusy, (Mem.allWritten_iff_buffer _ _).2 ⟨buf, hbuf⟩, rfl⟩
  exact ⟨⟨_, haccept, ⟨rfl, rfl, commandFrame_accept s _⟩, rfl, rfl⟩,
    ⟨_, exec_reorder_of_accept haccept rfl hbuf, ⟨rfl, rfl⟩, commandFrame_complete_storeDst_accept s _ _,
      dstBecomes_of_store rfl (reorder_length s.cfg buf)⟩⟩

end Machine

end Sys2Proof

/-!
The arithmetic of one butterfly (spec/41_butterfly.md R121 to R133, R143): both roundings, the products with the exact
twiddles, the write-back wrap, the ranges, and the butterfly as a 4-point transform.
-/

namespace Sys2Proof

/-- The range of `int16` (00_scope.md R13). -/
theorem Half.toInt_bounds (x : Half) : -32768 ≤ x.toInt ∧ x.toInt ≤ 32767 := by
  have := x.isLt
  rw [Half.toInt_eq_ite]
  split <;> omega

@[ext] theorem Wide.ext {u v : Wide} (hre : u.re = v.re) (him : u.im = v.im) : u = v :=
  congrArg₂ Wide.mk hre him

namespace Machine

/-! ### The two roundings -/

/-- R121: the floor, and the range it has for 16-bit components. -/
theorem q4_spec (x : Half) : 4 * q4 x ≤ x.toInt + 2 ∧ x.toInt + 2 < 4 * q4 x + 4 ∧ -8192 ≤ q4 x ∧ q4 x ≤ 8192 := by
  have := x.toInt_bounds
  unfold q4
  omega

/-- R122: the floor. -/
theorem rq15_spec (p : Int) : 32768 * rq15 p ≤ p + 16384 ∧ p + 16384 < 32768 * rq15 p + 32768 := by
  unfold rq15
  omega

/-- The floor of R122 is fixed by its two bounds. -/
theorem rq15_eq_of_bounds {p r : Int} (hlow : 32768 * r ≤ p + 16384) (hhigh : p + 16384 < 32768 * r + 32768) :
    rq15 p = r := by
  have := rq15_spec p
  omega

theorem rq15_neg_of_tie {p : Int} (h : p % 32768 = 16384) : rq15 (-p) = 1 - rq15 p := by
  have := rq15_spec p
  exact rq15_eq_of_bounds (by omega) (by omega)

theorem rq15_neg_of_not_tie {p : Int} (h : p % 32768 ≠ 16384) : rq15 (-p) = -rq15 p := by
  have := rq15_spec p
  exact rq15_eq_of_bounds (by omega) (by omega)

/-- Settles O7: the floor of a bounded sum. -/
theorem prescaleRoundsHalfUp : Obligations.PrescaleRoundsHalfUp :=
  ⟨q4_spec, fun _ => rfl⟩

/-- Settles O8: the floor leaves a remainder that negation mirrors, except at a tie. -/
theorem productRoundingIsHalfUpAndNotOdd : Obligations.ProductRoundingIsHalfUpAndNotOdd := by
  intro p
  obtain ⟨hlow, hhigh⟩ := rq15_spec p
  exact ⟨hlow, hhigh, rq15_neg_of_tie, rq15_neg_of_not_tie⟩

/-! ### Products with the exact twiddles (R124) -/

theorem rq15_mul_32767 {v : Int} (hlow : -16384 < v) (hhigh : v ≤ 16384) : rq15 (v * 32767) = v :=
  rq15_eq_of_bounds (by omega) (by omega)

@[simp] theorem rq15_zero : rq15 0 = 0 := rfl

theorem rq15_mul_neg_32768 (v : Int) : rq15 (v * -32768) = -v :=
  rq15_eq_of_bounds (by omega) (by omega)

/-- R123 for a twiddle written as two integers that fit 16 bits. -/
theorem cmul_ofInts (x : Wide) {re im : Int} (hre : -32768 ≤ re ∧ re < 32768) (him : -32768 ≤ im ∧ im < 32768) :
    cmul x (Sample.ofInts re im) =
      ⟨rq15 (x.re * re) - rq15 (x.im * im), rq15 (x.re * im) + rq15 (x.im * re)⟩ := by
  have hre' : (BitVec.ofInt 16 re).toInt = re := BitVec.toInt_ofInt_eq_self (by decide) hre.1 hre.2
  have him' : (BitVec.ofInt 16 im).toInt = im := BitVec.toInt_ofInt_eq_self (by decide) him.1 him.2
  rw [cmul, Sample.ofInts, hre', him']

/-- Settles O9: each product with `32767`, `0` or `-32768` is exact, and a complex product is made of four. -/
theorem exactTwiddleProducts : Obligations.ExactTwiddleProducts := by
  refine ⟨fun v => ⟨rq15_mul_32767, by simp, rq15_mul_neg_32768 v⟩, fun a b ha ha' hb hb' => ?_⟩
  have hra : rq15 (a * 32767) = a := rq15_mul_32767 ha ha'
  have hrb : rq15 (b * 32767) = b := rq15_mul_32767 hb hb'
  have hna : rq15 (a * -32768) = -a := rq15_mul_neg_32768 a
  have hnb : rq15 (b * -32768) = -b := rq15_mul_neg_32768 b
  refine ⟨?_, ?_, ?_, ?_⟩ <;> rw [cmul_ofInts _ (by decide) (by decide), Wide.mk.injEq]
  · simp only [hra, hrb, mul_zero, rq15_zero, sub_zero, zero_add, and_self]
  · simp only [hna, hnb, mul_zero, rq15_zero, zero_sub, neg_neg, add_zero, and_self]
  · simp only [hna, hnb, mul_zero, rq15_zero, sub_zero, zero_add, and_self]
  · simp only [hra, hrb, mul_zero, rq15_zero, zero_sub, add_zero, and_self]

/-! ### The write-back wrap (R125)

`wrap16c` takes the exact operations on wide values to the 16-bit ones. -/

theorem wrap16_add (a b : Int) : wrap16 (a + b) = wrap16 a + wrap16 b := BitVec.ofInt_add a b

theorem wrap16_neg (a : Int) : wrap16 (-a) = -wrap16 a := BitVec.ofInt_neg

theorem wrap16_sub (a b : Int) : wrap16 (a - b) = wrap16 a - wrap16 b := by
  rw [sub_eq_add_neg, wrap16_add, wrap16_neg, BitVec.sub_eq_add_neg]

theorem wrap16c_wadd (u v : Wide) :
    wrap16c (wadd u v) = ⟨(wrap16c u).re + (wrap16c v).re, (wrap16c u).im + (wrap16c v).im⟩ :=
  congrArg₂ Sample.mk (wrap16_add ..) (wrap16_add ..)

theorem wrap16c_wsub (u v : Wide) :
    wrap16c (wsub u v) = ⟨(wrap16c u).re - (wrap16c v).re, (wrap16c u).im - (wrap16c v).im⟩ :=
  congrArg₂ Sample.mk (wrap16_sub ..) (wrap16_sub ..)

/-- Adding `-i*v` is an addition on one component and a subtraction on the other. -/
theorem wrap16c_wadd_rotm (u v : Wide) :
    wrap16c (wadd u (rotm v)) = ⟨(wrap16c u).re + (wrap16c v).im, (wrap16c u).im - (wrap16c v).re⟩ :=
  congrArg₂ Sample.mk (wrap16_add ..) (wrap16_sub ..)

/-- Adding `i*v`, the other way round. -/
theorem wrap16c_wadd_rotp (u v : Wide) :
    wrap16c (wadd u (rotp v)) = ⟨(wrap16c u).re - (wrap16c v).im, (wrap16c u).im + (wrap16c v).re⟩ :=
  congrArg₂ Sample.mk (wrap16_sub ..) (wrap16_add ..)

/-- Settles O10: the wrap goes through every sum, difference and turn of the tree. -/
theorem wrappingEveryTreeSumStoresTheSame : Obligations.WrappingEveryTreeSumStoresTheSame := by
  refine ⟨fun _ => rfl, fun dir x0 x1 x2 x3 w1 w2 w3 => ⟨⟨rfl, rfl, rfl, rfl⟩, ?_, ?_, ?_, ?_⟩⟩
  · simp only [bfly, bflyTree, wrap16c_wadd]
  · simp only [bfly, bflyTree, wrap16c_wsub, wrap16c_wadd]
  all_goals
    rintro rfl
    simp only [bfly, bflyTree, crossOne, crossThree, wrap16c_wadd_rotm, wrap16c_wadd_rotp, wrap16c_wsub, and_self]

/-! ### Ranges (R143) -/

theorem WithinBound.wadd {a b : Int} {u v : Wide} (hu : WithinBound a u) (hv : WithinBound b v) :
    WithinBound (a + b) (wadd u v) := by
  simp only [WithinBound, Machine.wadd] at *
  omega

theorem WithinBound.wsub {a b : Int} {u v : Wide} (hu : WithinBound a u) (hv : WithinBound b v) :
    WithinBound (a + b) (wsub u v) := by
  simp only [WithinBound, Machine.wsub] at *
  omega

theorem WithinBound.rotm {b : Int} {u : Wide} (hu : WithinBound b u) : WithinBound b (rotm u) := by
  simp only [WithinBound, Machine.rotm] at *
  omega

theorem WithinBound.rotp {b : Int} {u : Wide} (hu : WithinBound b u) : WithinBound b (rotp u) := by
  simp only [WithinBound, Machine.rotp] at *
  omega

theorem WithinBound.crossOne {a b : Int} {u v : Wide} (hu : WithinBound a u) (hv : WithinBound b v) :
    ∀ dir, WithinBound (a + b) (crossOne dir u v)
  | .forward => hu.wadd hv.rotm
  | .inverse => hu.wadd hv.rotp

theorem WithinBound.crossThree {a b : Int} {u v : Wide} (hu : WithinBound a u) (hv : WithinBound b v) :
    ∀ dir, WithinBound (a + b) (crossThree dir u v)
  | .forward => hu.wadd hv.rotp
  | .inverse => hu.wadd hv.rotm

theorem withinBound_q4c (x : Sample) : WithinBound 8192 (q4c x) := by
  obtain ⟨-, -, hre, hre'⟩ := q4_spec x.re
  obtain ⟨-, -, him, him'⟩ := q4_spec x.im
  exact ⟨hre, hre', him, him'⟩

/-- The exact product of a prescaled component and a twiddle component. -/
theorem mul_toInt_bounds {p : Int} (w : Half) (hp : -8192 ≤ p) (hp' : p ≤ 8192) :
    -(2 ^ 28) ≤ p * w.toInt ∧ p * w.toInt ≤ 2 ^ 28 := by
  have hw : |w.toInt| ≤ 32768 := by
    have := w.toInt_bounds
    exact abs_le.2 ⟨by omega, by omega⟩
  have hmul : |p * w.toInt| ≤ 8192 * 32768 := by
    rw [abs_mul]
    exact mul_le_mul (abs_le.2 ⟨hp, hp'⟩) hw (abs_nonneg _) (by decide)
  exact abs_le.1 hmul

theorem rq15_mul_toInt_bounds {p : Int} (w : Half) (hp : -8192 ≤ p) (hp' : p ≤ 8192) :
    -8192 ≤ rq15 (p * w.toInt) ∧ rq15 (p * w.toInt) ≤ 8192 := by
  have := mul_toInt_bounds w hp hp'
  have := rq15_spec (p * w.toInt)
  omega

theorem WithinBound.cmul {x : Wide} (hx : WithinBound 8192 x) (w : Sample) : WithinBound 16384 (cmul x w) := by
  obtain ⟨hre, hre', him, him'⟩ := hx
  have h1 := rq15_mul_toInt_bounds w.re hre hre'
  have h2 := rq15_mul_toInt_bounds w.im him him'
  have h3 := rq15_mul_toInt_bounds w.im hre hre'
  have h4 := rq15_mul_toInt_bounds w.re him him'
  simp only [WithinBound, Machine.cmul]
  omega

/-- Settles O11: the bounds of the prescaled samples add up along the tree. -/
theorem butterflyRanges : Obligations.ButterflyRanges := by
  refine ⟨fun dir x0 x1 x2 x3 w1 w2 w3 => ?_, fun p w hp hp' => ?_⟩
  · have f0 := withinBound_q4c x0
    have f1 := (withinBound_q4c x2).cmul w1
    have f2 := (withinBound_q4c x1).cmul w2
    have f3 := (withinBound_q4c x3).cmul w3
    have s0 := f0.wadd f2
    have d0 := f0.wsub f2
    have s1 := f1.wadd f3
    have d1 := f1.wsub f3
    exact ⟨f0, withinBound_q4c x1, withinBound_q4c x2, withinBound_q4c x3, f0, f1, f2, f3, s0, d0, s1, d1,
      s0.wadd s1, d0.crossOne d1 dir, s0.wsub s1, d0.crossThree d1 dir⟩
  · obtain ⟨hlow, hhigh⟩ := mul_toInt_bounds w hp hp'
    exact ⟨hlow, hhigh, rq15_mul_toInt_bounds w hp hp'⟩

/-! ### The 4-point transform (R131, R133) -/

/-- Multiplication by `c`, which is `-i` for `FORWARD` and `+i` for `INVERSE` (R133). -/
def turn : Dir → Wide → Wide
  | .forward => rotm
  | .inverse => rotp

theorem crossOne_eq (dir : Dir) (u v : Wide) : crossOne dir u v = wadd u (turn dir v) := by
  cases dir <;> rfl

/-- The other turn of R131 is the opposite one. -/
theorem crossThree_eq (dir : Dir) (u v : Wide) : crossThree dir u v = wsub u (turn dir v) := by
  cases dir <;> ext <;> simp [crossThree, turn, wadd, wsub, rotm, rotp, sub_eq_add_neg]

theorem turn_wsub (dir : Dir) (u v : Wide) : turn dir (wsub u v) = wsub (turn dir u) (turn dir v) := by
  cases dir <;> ext <;> simp [turn, wsub, rotm, rotp] <;> ring

/-- `c^2 = -1`. -/
theorem wadd_turn_turn (dir : Dir) (u v : Wide) : wadd u (turn dir (turn dir v)) = wsub u v := by
  cases dir <;> ext <;> simp [turn, wadd, wsub, rotm, rotp, sub_eq_add_neg]

/-- `c^4 = 1`. -/
theorem turn_turn_turn_turn (dir : Dir) (u : Wide) : turn dir (turn dir (turn dir (turn dir u))) = u := by
  cases dir <;> simp [turn, rotm, rotp]

/-- The sum over `r` of `c^(r*p) * F_r` (R133). -/
def fourPoint (c : Wide → Wide) (f0 f1 f2 f3 : Wide) (p : Nat) : Wide :=
  wadd (wadd (wadd (c^[0] f0) (c^[1 * p] f1)) (c^[2 * p] f2)) (c^[3 * p] f3)

section FourPoint

variable (dir : Dir) (f0 f1 f2 f3 : Wide)

theorem fourPoint_zero (c : Wide → Wide) : fourPoint c f0 f1 f2 f3 0 = wadd (wadd f0 f2) (wadd f1 f3) := by
  ext <;> simp [fourPoint, wadd] <;> ring

theorem fourPoint_one :
    fourPoint (turn dir) f0 f1 f2 f3 1 = crossOne dir (wsub f0 f2) (wsub f1 f3) := by
  have hsum : fourPoint (turn dir) f0 f1 f2 f3 1 = wsub (wsub (wadd f0 (turn dir f1)) f2) (turn dir f3) := by
    simp [fourPoint, wadd_turn_turn]
  rw [hsum, crossOne_eq, turn_wsub]
  ext <;> simp only [wadd, wsub] <;> ring

theorem fourPoint_two :
    fourPoint (turn dir) f0 f1 f2 f3 2 = wsub (wadd f0 f2) (wadd f1 f3) := by
  have hsum : fourPoint (turn dir) f0 f1 f2 f3 2 = wsub (wadd (wsub f0 f1) f2) f3 := by
    simp [fourPoint, wadd_turn_turn, turn_turn_turn_turn]
  rw [hsum]
  ext <;> simp only [wadd, wsub] <;> ring

theorem fourPoint_three :
    fourPoint (turn dir) f0 f1 f2 f3 3 = crossThree dir (wsub f0 f2) (wsub f1 f3) := by
  have hsum : fourPoint (turn dir) f0 f1 f2 f3 3 = wadd (wsub (wsub f0 (turn dir f1)) f2) (turn dir f3) := by
    simp [fourPoint, wadd_turn_turn, turn_turn_turn_turn]
  rw [hsum, crossThree_eq, turn_wsub]
  ext <;> simp only [wadd, wsub] <;> ring

end FourPoint

/-- Settles O12: with `c^2 = -1` the four sums are the straight and the cross outputs of the tree. -/
theorem butterflyIsFourPointTransform : Obligations.ButterflyIsFourPointTransform := by
  intro dir x0 x1 x2 x3 w1 w2 w3
  exact ⟨congrArg wrap16c (fourPoint_zero ..).symm, congrArg wrap16c (fourPoint_one dir ..).symm,
    congrArg wrap16c (fourPoint_two dir ..).symm, congrArg wrap16c (fourPoint_three dir ..).symm⟩

end Machine

end Sys2Proof

/-!
One layer (spec/41_butterfly.md R134 to R138): the index of a sample tells the butterfly it belongs to, so every
butterfly of a layer reads and writes four entries of its own, and the order of the butterflies does not matter.
-/

namespace Sys2Proof.Machine

/-! ### Sample indices (R135, R136) -/

theorem sampleIndex_eq (m g k q : Nat) : sampleIndex m g k q = m * (4 * g + q) + k := by
  unfold sampleIndex
  ring

/-- The quarter and the group of a sample, from its index. -/
theorem sampleIndex_div {m k : Nat} (hk : k < m) (g q : Nat) : sampleIndex m g k q / m = 4 * g + q := by
  rw [sampleIndex_eq, Nat.mul_add_div (Nat.zero_lt_of_lt hk), Nat.div_eq_of_lt hk, add_zero]

/-- The position of a sample in its quarter, from its index. -/
theorem sampleIndex_mod {m k : Nat} (hk : k < m) (g q : Nat) : sampleIndex m g k q % m = k := by
  rw [sampleIndex_eq, Nat.mul_add_mod, Nat.mod_eq_of_lt hk]

/-- R138: the index of a sample tells its group, its position and its offset. -/
theorem sampleIndex_inj {m g k q g' k' q' : Nat} (hk : k < m) (hk' : k' < m) (hq : q < 4) (hq' : q' < 4)
    (h : sampleIndex m g k q = sampleIndex m g' k' q') : g = g' ∧ k = k' ∧ q = q' := by
  have hdiv : 4 * g + q = 4 * g' + q' := by rw [← sampleIndex_div hk g q, h, sampleIndex_div hk' g' q']
  have hmod : k = k' := by rw [← sampleIndex_mod hk g q, h, sampleIndex_mod hk' g' q']
  omega

/-- R136. -/
theorem sampleIndex_lt {m groups g k q : Nat} (hg : g < groups) (hk : k < m) (hq : q < 4) :
    sampleIndex m g k q < groups * (4 * m) := by
  calc sampleIndex m g k q
      = m * (4 * g + q) + k := sampleIndex_eq m g k q
    _ < m * (4 * g + q + 1) := by rw [mul_add_one]; omega
    _ ≤ m * (4 * groups) := Nat.mul_le_mul_left m (by omega)
    _ = groups * (4 * m) := by ring

/-- The last sample of the last group. -/
theorem sampleIndex_last {m groups : Nat} (hm : 1 ≤ m) (hgroups : 1 ≤ groups) :
    sampleIndex m (groups - 1) (m - 1) 3 = groups * (4 * m) - 1 := by
  obtain ⟨g, rfl⟩ := Nat.exists_eq_add_of_le' hgroups
  rw [sampleIndex, Nat.add_sub_cancel, add_one_mul]
  omega

/-- R138: every index below `groups*4*m` is the index of a sample of the layer. -/
theorem exists_sampleIndex_eq {m groups i : Nat} (hi : i < groups * (4 * m)) :
    ∃ g k q, g < groups ∧ k < m ∧ q < 4 ∧ sampleIndex m g k q = i := by
  have hm : 0 < m := Nat.pos_of_ne_zero fun h => by simp [h] at hi
  have hquarter : i / m < 4 * groups := Nat.div_lt_of_lt_mul (hi.trans_eq (by ring))
  refine ⟨i / m / 4, i % m, i / m % 4, by omega, Nat.mod_lt _ hm, Nat.mod_lt _ (by decide), ?_⟩
  rw [sampleIndex_eq, Nat.div_add_mod, Nat.div_add_mod]

theorem existsUnique_sampleIndex_eq {m groups i : Nat} (hi : i < groups * (4 * m)) :
    ∃! p : Nat × Nat × Nat, p.1 < groups ∧ p.2.1 < m ∧ p.2.2 < 4 ∧ sampleIndex m p.1 p.2.1 p.2.2 = i := by
  obtain ⟨g, k, q, hg, hk, hq, rfl⟩ := exists_sampleIndex_eq hi
  refine ⟨(g, k, q), ⟨hg, hk, hq, rfl⟩, ?_⟩
  rintro ⟨g', k', q'⟩ ⟨-, hk', hq', h⟩
  obtain ⟨rfl, rfl, rfl⟩ := sampleIndex_inj hk' hk hq' hq h
  rfl

/-! ### Legal strides and group counts (R141) -/

theorem groupsOk_iff (c : Config) (stride groups : Nat) :
    groupsOk c stride groups = true ↔ groups * stride = c.N :=
  decide_eq_true_iff

theorem reachOk_iff (c : Config) (tws m : Nat) : reachOk c tws m = true ↔ tws + 3 * (m - 1) < c.twlen :=
  decide_eq_true_iff

theorem four_mul_quarter {stride : Nat} (h : strideOk stride = true) : 4 * (stride / 4) = stride := by
  have := (strideOk_iff _).1 h
  omega

theorem one_le_quarter {stride : Nat} (h : strideOk stride = true) : 1 ≤ stride / 4 := by
  have := (strideOk_iff _).1 h
  omega

/-- The groups of a legal layer tile the buffer. -/
theorem groups_mul_quarter {c : Config} {stride groups : Nat} (hs : strideOk stride = true)
    (hg : groupsOk c stride groups = true) : groups * (4 * (stride / 4)) = c.N := by
  rw [four_mul_quarter hs, (groupsOk_iff c stride groups).1 hg]

/-- A layer has at least one group, since the buffer is not empty. -/
theorem one_le_groups {c : Config} {stride groups : Nat} (hg : groupsOk c stride groups = true) : 1 ≤ groups := by
  have hN : 0 < groups * stride := (groupsOk_iff c stride groups).1 hg ▸ Nat.pow_pos (by decide)
  exact Nat.pos_of_mul_pos_right hN

/-- R136: the twiddle indices of a layer in reach are inside the table. -/
theorem twiddleIndex_lt {c : Config} {tws m k j : Nat} (h : reachOk c tws m = true) (hk : k < m) (hj : j ≤ 3) :
    tws + j * k < c.twlen := by
  have hreach := (reachOk_iff c tws m).1 h
  have hmul : j * k ≤ 3 * (m - 1) := Nat.mul_le_mul hj (by omega)
  omega

/-- Settles O19, from the range of a sample index and the reach of the twiddles. -/
theorem layerIndicesStayInsideTheirSpaces : Obligations.LayerIndicesStayInsideTheirSpaces := by
  intro c tws stride groups hs hg
  have hN := groups_mul_quarter hs hg
  refine ⟨fun g k q hgr hk hq => ?_, ?_, fun h k j hk hj => twiddleIndex_lt h hk hj⟩
  · exact Nat.le_sub_one_of_lt (hN ▸ sampleIndex_lt hgr hk hq)
  · rw [sampleIndex_last (one_le_quarter hs) (one_le_groups hg), hN]

/-! ### The butterflies of a layer -/

theorem layerWork_eq_product (m groups : Nat) : layerWork m groups = List.range groups ×ˢ List.range m := rfl

theorem layerWork_length (m groups : Nat) : (layerWork m groups).length = groups * m := by
  simp [layerWork_eq_product, List.length_product]

theorem layerWork_nodup (m groups : Nat) : (layerWork m groups).Nodup :=
  List.nodup_range.product List.nodup_range

theorem mem_layerWork {m groups : Nat} {gk : Nat × Nat} : gk ∈ layerWork m groups ↔ gk.1 < groups ∧ gk.2 < m := by
  obtain ⟨g, k⟩ := gk
  rw [layerWork_eq_product, List.mem_product, List.mem_range, List.mem_range]

/-! ### One butterfly in place (R132) -/

/-- The result that is written at the offset `q*m`. -/
def Quad.at (o : Quad) : Nat → Sample
  | 0 => o.o0
  | 1 => o.o1
  | 2 => o.o2
  | _ => o.o3

theorem sampleAt_set_same {buf : List Sample} {i : Nat} (x : Sample) (hi : i < buf.length) :
    sampleAt (buf.set i x) i = x := by
  simp [sampleAt, hi]

theorem sampleAt_set_other {buf : List Sample} {i j : Nat} (x : Sample) (h : i ≠ j) :
    sampleAt (buf.set i x) j = sampleAt buf j := by
  simp [sampleAt, h]

section Butterfly

variable {c : Config} {tws m : Nat} {buf : List Sample}

/-- A butterfly reads the four samples of its position and no other. -/
theorem bflyOn_congr {buf' : List Sample} {gk : Nat × Nat}
    (h : ∀ q, q < 4 → sampleAt buf (sampleIndex m gk.1 gk.2 q) = sampleAt buf' (sampleIndex m gk.1 gk.2 q)) :
    bflyOn c tws m buf gk = bflyOn c tws m buf' gk := by
  unfold bflyOn
  rw [h 0 (by decide), h 1 (by decide), h 2 (by decide), h 3 (by decide)]

/-- A butterfly writes the four samples of its position. -/
theorem sampleAt_bflyAt_same {g k q : Nat} (hk : k < m) (hq : q < 4) (hlen : sampleIndex m g k 3 < buf.length) :
    sampleAt (bflyAt c tws m buf (g, k)) (sampleIndex m g k q) = (bflyOn c tws m buf (g, k)).at q := by
  have hne {q q' : Nat} (h : q < 4) (h' : q' < 4) (hqq : q ≠ q') : sampleIndex m g k q ≠ sampleIndex m g k q' := by
    intro heq
    obtain ⟨-, -, hsame⟩ := sampleIndex_inj hk hk h h' heq
    exact hqq hsame
  have hin : sampleIndex m g k q < buf.length := by
    have : q * m ≤ 3 * m := Nat.mul_le_mul_right m (by omega)
    unfold sampleIndex at *
    omega
  unfold bflyAt
  interval_cases q <;> simp [sampleAt_set_same, sampleAt_set_other, hne, hin, Quad.at]

/-- R138: a butterfly writes no sample of another. -/
theorem sampleAt_bflyAt_other {gk : Nat × Nat} {g k q : Nat} (hgk : gk.2 < m) (hk : k < m) (hq : q < 4)
    (h : (g, k) ≠ gk) :
    sampleAt (bflyAt c tws m buf gk) (sampleIndex m g k q) = sampleAt buf (sampleIndex m g k q) := by
  have hne {q' : Nat} (hq' : q' < 4) : sampleIndex m gk.1 gk.2 q' ≠ sampleIndex m g k q := fun heq => by
    obtain ⟨hg, hk, -⟩ := sampleIndex_inj hgk hk hq' hq heq
    exact h (Prod.ext hg.symm hk.symm)
  unfold bflyAt
  rw [sampleAt_set_other _ (hne _), sampleAt_set_other _ (hne _), sampleAt_set_other _ (hne _),
    sampleAt_set_other _ (hne _)] <;> decide

/-! ### Butterflies in place one after another (R138) -/

/-- A sample is rewritten by its own butterfly, from what the buffer held at the start, if that is among those done, and
is as it was otherwise. -/
theorem sampleAt_layerInOrder {order : List (Nat × Nat)} (hnodup : order.Nodup) (horder : ∀ gk ∈ order, gk.2 < m)
    {g k q : Nat} (hk : k < m) (hq : q < 4) (hlen : sampleIndex m g k 3 < buf.length) :
    sampleAt (layerInOrder c tws m order buf) (sampleIndex m g k q) =
      if (g, k) ∈ order then (bflyOn c tws m buf (g, k)).at q else sampleAt buf (sampleIndex m g k q) := by
  induction order generalizing buf with
  | nil => simp [layerInOrder]
  | cons gk rest ih =>
    obtain ⟨hfirst, hrest⟩ := List.nodup_cons.1 hnodup
    obtain ⟨hgk, horder⟩ := List.forall_mem_cons.1 horder
    have hstep : layerInOrder c tws m (gk :: rest) buf = layerInOrder c tws m rest (bflyAt c tws m buf gk) := rfl
    rw [hstep, ih hrest horder (by simpa using hlen)]
    by_cases hmem : (g, k) ∈ rest
    · have hne : (g, k) ≠ gk := fun h => hfirst (h ▸ hmem)
      rw [if_pos hmem, if_pos (List.mem_cons_of_mem _ hmem),
        bflyOn_congr fun q hq => sampleAt_bflyAt_other hgk hk hq hne]
    · rw [if_neg hmem]
      by_cases heq : (g, k) = gk
      · subst heq
        rw [if_pos List.mem_cons_self, sampleAt_bflyAt_same hk hq hlen]
      · rw [if_neg (by simp [heq, hmem]), sampleAt_bflyAt_other hgk hk hq heq]

/-- R138: all the butterflies of a layer, in any order, rewrite every sample from what the buffer held before. -/
theorem sampleAt_layerInOrder_of_perm {groups : Nat} {order : List (Nat × Nat)}
    (hperm : order.Perm (layerWork m groups)) (hlen : buf.length = groups * (4 * m))
    {g k q : Nat} (hg : g < groups) (hk : k < m) (hq : q < 4) :
    sampleAt (layerInOrder c tws m order buf) (sampleIndex m g k q) = (bflyOn c tws m buf (g, k)).at q := by
  have hnodup : order.Nodup := hperm.nodup_iff.2 (layerWork_nodup m groups)
  have horder : ∀ gk ∈ order, gk.2 < m := fun gk h => (mem_layerWork.1 (hperm.mem_iff.1 h)).2
  have hdone : (g, k) ∈ order := hperm.mem_iff.2 (mem_layerWork.2 ⟨hg, hk⟩)
  rw [sampleAt_layerInOrder hnodup horder hk hq (hlen ▸ sampleIndex_lt hg hk (by decide)), if_pos hdone]

theorem layerInOrder_eq_of_perm {groups : Nat} {order : List (Nat × Nat)} (hperm : order.Perm (layerWork m groups))
    (hlen : buf.length = groups * (4 * m)) :
    layerInOrder c tws m order buf = layerInOrder c tws m (layerWork m groups) buf := by
  rw [← map_sampleAt_range (layerInOrder c tws m order buf),
    ← map_sampleAt_range (layerInOrder c tws m (layerWork m groups) buf), layerInOrder_length, layerInOrder_length]
  refine List.map_congr_left fun i hi => ?_
  obtain ⟨g, k, q, hg, hk, hq, rfl⟩ := exists_sampleIndex_eq (hlen ▸ List.mem_range.1 hi)
  rw [sampleAt_layerInOrder_of_perm hperm hlen hg hk hq, sampleAt_layerInOrder_of_perm (.refl _) hlen hg hk hq]

end Butterfly

/-- Settles O20: the index tells the butterfly, and in any order each butterfly reads what the buffer held before. -/
theorem butterfliesMayBeDoneInAnyOrder : Obligations.ButterfliesMayBeDoneInAnyOrder := by
  refine ⟨?_, fun c buf tws stride groups order hs hg hlen hperm => ?_⟩
  · rintro m groups n - rfl
    refine ⟨fun g k q hg hk hq => ⟨?_, sampleIndex_lt hg hk hq⟩, fun i hi => existsUnique_sampleIndex_eq hi⟩
    unfold sampleIndex
    ring
  · exact layerInOrder_eq_of_perm hperm (hlen.trans (groups_mul_quarter hs hg).symm)

/-- R134, R137: what a legal layer leaves at the samples of one position. -/
theorem sampleAt_layer {c : Config} {buf : List Sample} {stride groups : Nat} (tws : Nat)
    (hs : strideOk stride = true) (hg : groupsOk c stride groups = true) (hlen : buf.length = c.N)
    {g k q : Nat} (hgr : g < groups) (hk : k < stride / 4) (hq : q < 4) :
    sampleAt (layer c buf tws stride groups) (sampleIndex (stride / 4) g k q) =
      (bflyOn c tws (stride / 4) buf (g, k)).at q :=
  sampleAt_layerInOrder_of_perm (.refl _) (hlen.trans (groups_mul_quarter hs hg).symm) hgr hk hq

/-- Settles O21: the count and the length of the layer, and its four samples at one position. -/
theorem layerAppliesEachButterflyOnce : Obligations.LayerAppliesEachButterflyOnce := by
  intro c buf tws stride groups hs hg hlen
  have hN := groups_mul_quarter hs hg
  have hcount : groups * (stride / 4) = c.N / 4 := by
    rw [← hN, Nat.mul_left_comm, Nat.mul_div_cancel_left _ (by decide)]
  refine ⟨layerWork_length _ _, hcount, (layer_length ..).trans hlen, ?_⟩
  intro g k hgr hk m i0 o out
  have hindex (q : Nat) : sampleIndex m g k q = i0 + q * m := by
    simp only [sampleIndex, m, i0, four_mul_quarter hs]
  have hquad : bflyOn c tws m buf (g, k) = o := by
    simp only [bflyOn, hindex, twiddle, o, zero_mul, one_mul, add_zero]
  have hout (q : Nat) (hq : q < 4) : sampleAt out (i0 + q * m) = o.at q := by
    rw [← hindex, ← hquad]
    exact sampleAt_layer tws hs hg hlen hgr hk hq
  have h0 := hout 0 (by decide)
  have h1 := hout 1 (by decide)
  rw [zero_mul, add_zero] at h0
  rw [one_mul] at h1
  exact ⟨h0, h1, hout 2 (by decide), hout 3 (by decide)⟩

end Sys2Proof.Machine

/-!
`RUNLAYER` (spec/41_butterfly.md R140, R141): when it runs, why it is refused, and what it leaves.
-/

namespace Sys2Proof.Machine

/-- R141: a stride whose groups tile the `2^(2K)` samples is a power of two. -/
theorem stride_eq_two_pow {c : Config} {stride groups : Nat} (hs : 4 ≤ stride) (hN : groups * stride = c.N) :
    ∃ e, 2 ≤ e ∧ e ≤ 2 * c.K ∧ stride = 2 ^ e := by
  have hdvd : stride ∣ 2 ^ (2 * c.K) := ⟨groups, c.N_eq_two_pow.symm.trans (hN.symm.trans (mul_comm ..))⟩
  obtain ⟨e, he, rfl⟩ := (Nat.dvd_prime_pow Nat.prime_two).1 hdvd
  exact ⟨e, (Nat.pow_le_pow_iff_right (by decide)).1 (show 2 ^ 2 ≤ 2 ^ e from hs), he, rfl⟩

/-- The preconditions of R141 on the operand registers, in the model's checks. -/
theorem runlayer_operands_iff (s : State) :
    (strideOk s.opStride = true ∧ groupsOk s.cfg s.opStride s.opGroups = true ∧
        reachOk s.cfg s.opTws (s.opStride / 4) = true) ↔
      (4 ≤ s.arg1.toNat ∧ s.arg1.toNat % 4 = 0) ∧ s.arg2.toNat * s.arg1.toNat = s.cfg.N ∧
        s.arg0.toNat + 3 * (s.arg1.toNat / 4 - 1) < s.cfg.twlen := by
  rw [strideOk_iff, groupsOk_iff, reachOk_iff]
  rfl

theorem exec_runlayer_next_iff (s : State) :
    (∃ t, exec .runlayer s = .next t) ↔
      s.status.busy = false ∧ (4 ≤ s.arg1.toNat ∧ s.arg1.toNat % 4 = 0) ∧ s.arg2.toNat * s.arg1.toNat = s.cfg.N ∧
        s.arg0.toNat + 3 * (s.arg1.toNat / 4 - 1) < s.cfg.twlen ∧ Mem.allWritten s.dst s.cfg.N = true := by
  have haccept : (∃ a, accept .runlayer s = .next a) ↔
      s.status.busy = false ∧ (strideOk s.opStride = true ∧ groupsOk s.cfg s.opStride s.opGroups = true ∧
        reachOk s.cfg s.opTws (s.opStride / 4) = true) ∧ Mem.allWritten s.dst s.cfg.N = true := by
    simp [accept, acceptRunlayer_eq_next_iff, and_assoc]
  rw [exec_next_iff_accept, haccept, runlayer_operands_iff]
  simp only [and_assoc]

/-- The reasons of R141. -/
theorem precondition_fails_of_runlayer_violation {s : State} {r : Refusal} (h : commandViolation .runlayer s r = true) :
    (r = .busyWrite ∧ s.status.busy = true) ∨
      (r = .badOperand ∧ ¬(4 ≤ s.arg1.toNat ∧ s.arg1.toNat % 4 = 0)) ∨
      (r = .badOperand ∧ s.arg2.toNat * s.arg1.toNat ≠ s.cfg.N) ∨
      (r = .badIndex ∧ s.cfg.twlen ≤ s.arg0.toNat + 3 * (s.arg1.toNat / 4 - 1)) ∨
      (r = .unwrittenSample ∧ Mem.allWritten s.dst s.cfg.N = false) := by
  cases r with
  | busyWrite => exact .inl ⟨rfl, h⟩
  | badOperand =>
    have hop : s.arg1.toNat < 4 ∨ s.arg1.toNat % 4 ≠ 0 ∨ s.arg2.toNat * s.arg1.toNat ≠ s.cfg.N := of_decide_eq_true h
    by_cases hN : s.arg2.toNat * s.arg1.toNat = s.cfg.N
    · exact .inr (.inl ⟨rfl, by simp only [hN] at hop; omega⟩)
    · exact .inr (.inr (.inl ⟨rfl, hN⟩))
  | badIndex =>
    have hreach : (s.arg0.toNat : Int) + 3 * (((s.arg1.toNat / 4 : Nat) : Int) - 1) ≥ s.cfg.twlen :=
      of_decide_eq_true h
    exact .inr (.inr (.inr (.inl ⟨rfl, by omega⟩)))
  | unwrittenSample => exact .inr (.inr (.inr (.inr ⟨rfl, by simpa [commandViolation] using h⟩)))
  | _ => simp [commandViolation] at h

/-- Settles O22: a command runs exactly when it is accepted, and a refusal records a reason that applies. -/
theorem runlayerRunsExactlyOnLegalOperands : Obligations.RunlayerRunsExactlyOnLegalOperands :=
  fun s => ⟨exec_runlayer_next_iff s, fun _ h => precondition_fails_of_runlayer_violation (violation_of_exec_refused h),
    fun h4 _ hN => stride_eq_two_pow h4 hN⟩

theorem layerPhase_of_buffer {s : State} {buf : List Sample} (hreach : reachOk s.cfg s.seq.tws.toNat s.seq.m = true)
    (hbuf : Mem.buffer? s.dst s.cfg.N = some buf) :
    layerPhase s =
      afterLayer (s.storeDst (layer s.cfg buf s.seq.tws.toNat (4 * s.seq.m) (s.cfg.N / (4 * s.seq.m)))) := by
  rw [layerPhase, layerWorkPhase_eq_next_iff.2 ⟨hreach, buf, hbuf, rfl⟩, andThen_next]

/-- What the whole `RUNLAYER` answers (R140): its acceptance, the layer, completion. -/
theorem exec_runlayer_of_accept {s : State} {q : Seq} {buf : List Sample}
    (h : acceptRunlayer s = .next (s.accept q)) (hchain : q.chain = false)
    (hreach : reachOk s.cfg q.tws.toNat q.m = true) (hbuf : Mem.buffer? s.dst s.cfg.N = some buf) :
    exec .runlayer s =
      .next ((s.accept q).storeDst
        (layer s.cfg buf q.tws.toNat (4 * q.m) (s.cfg.N / (4 * q.m)))).complete := by
  calc exec .runlayer s
      = andThen (acceptRunlayer s) layerPhase := rfl
    _ = layerPhase (s.accept q) := by rw [h, andThen_next]
    _ = afterLayer ((s.accept q).storeDst (layer s.cfg buf q.tws.toNat (4 * q.m) (s.cfg.N / (4 * q.m)))) :=
      layerPhase_of_buffer (s := s.accept q) hreach hbuf
    _ = .next ((s.accept q).storeDst (layer s.cfg buf q.tws.toNat (4 * q.m) (s.cfg.N / (4 * q.m)))).complete :=
      afterLayer_eq_next_iff.2 (.inr ⟨by simp [hchain], rfl⟩)

/-- Settles O23: acceptance, the layer and completion, of which only the layer touches `DST`. -/
theorem runlayerCompletesWithLayerOfDst : Obligations.RunlayerCompletesWithLayerOfDst := by
  intro s buf hbusy h4 hmod hN htws hbuf
  obtain ⟨hs, hg, hreach⟩ := (runlayer_operands_iff s).2 ⟨⟨h4, hmod⟩, hN, htws⟩
  have hlen : buf.length = s.cfg.N := ((Mem.buffer?_eq_some_iff _ _ _).1 hbuf).1
  have haccept : accept .runlayer s = .next (s.accept ⟨.layer, false, s.seq.i, s.opStride / 4, s.arg0⟩) :=
    acceptRunlayer_eq_next_iff.2 ⟨hbusy, hs, hg, hreach, (Mem.allWritten_iff_buffer _ _).2 ⟨buf, hbuf⟩, rfl⟩
  have hgroups : s.cfg.N / s.opStride = s.opGroups := by
    rw [← (groupsOk_iff ..).1 hg]
    exact Nat.mul_div_cancel _ (Nat.zero_lt_of_lt h4)
  have hexec := exec_runlayer_of_accept haccept rfl hreach hbuf
  simp only [four_mul_quarter hs, hgroups] at hexec
  exact ⟨⟨_, haccept, ⟨rfl, rfl, commandFrame_accept s _⟩, rfl, rfl, rfl, rfl⟩,
    ⟨_, hexec, ⟨rfl, rfl⟩, commandFrame_complete_storeDst_accept s _ _,
      dstBecomes_of_store rfl ((layer_length ..).trans hlen)⟩⟩

end Sys2Proof.Machine

/-!
The transform as a sequence of layers (spec/42_orchestrator.md R160, R164), and `WARMUP` (R170).
-/

namespace Sys2Proof.Machine

/-! ### `WARMUP` -/

/-- `DONE` is written at every acceptance and read by none, so acceptance does not see an earlier `WARMUP`. -/
theorem accept_warmed (i : Instr) (s : State) : accept i { s with status := s.status.warmed } = accept i s := by
  cases i <;> rfl

theorem exec_warmed (i : Instr) (s : State) : exec i { s with status := s.status.warmed } = exec i s := by
  rw [exec_eq_accept_runPhases, exec_eq_accept_runPhases, accept_warmed]

theorem execWarmup_of_not_busy {s : State} (h : s.status.busy = false) :
    execWarmup s = .next { s with status := ⟨false, true⟩ } :=
  execWarmup_eq_next_iff.2 ⟨h, by rw [Status.warmed, h]⟩

/-- Settles O29: what `WARMUP` answers, and that acceptance, which reads `BUSY` alone of the flags, does not see it. -/
theorem warmupOnlySetsDone : Obligations.WarmupOnlySetsDone := by
  refine fun s => ⟨fun h => ⟨execWarmup_of_not_busy h, execWarmup_of_not_busy h⟩, fun h => if_pos h, fun i t ht => ?_⟩
  obtain ⟨-, rfl⟩ := execWarmup_eq_next_iff.1 ht
  exact exec_warmed i s

/-! ### The layers of a transform (R164) -/

theorem bufferAfter_zero (c : Config) (src : List Sample) : bufferAfter c src 0 = reorder c src := rfl

/-- R164: the number of groups of layer `l`. -/
theorem N_div_four_pow {c : Config} {l : Nat} (hl : l < c.K) : c.N / 4 ^ (l + 1) = 4 ^ (c.K - 1 - l) := by
  rw [Config.N, Nat.pow_div hl (by decide), Nat.sub_sub, Nat.add_comm]

/-- One more layer, with the quarter stride and the group count in the form in which the loop has them (R160). -/
theorem bufferAfter_succ {c : Config} {l : Nat} (src : List Sample) (hl : l < c.K) :
    bufferAfter c src (l + 1) =
      layer c (bufferAfter c src l) (schedAt c l) (4 * 4 ^ l) (c.N / (4 * 4 ^ l)) := by
  rw [← pow_succ', N_div_four_pow hl, bufferAfter, List.range_succ, List.foldl_append]
  rfl

theorem bufferAfter_length {c : Config} (src : List Sample) {l : Nat} (hl : l ≤ c.K) :
    (bufferAfter c src l).length = c.N := by
  induction l with
  | zero => exact reorder_length c src
  | succ l ih => rw [bufferAfter_succ src hl, layer_length, ih (Nat.le_of_lt hl)]

theorem four_pow_lt_N_iff {c : Config} {l : Nat} : 4 ^ l < c.N ↔ l < c.K :=
  Nat.pow_lt_pow_iff_right (by decide)

/-- From layer `l` on, with fuel for the layers that are left, the loop does those and stops. -/
theorem transformLoop_eq_bufferAfter {c : Config} (src : List Sample) {fuel l : Nat} (hl : l ≤ c.K)
    (hfuel : c.K - l ≤ fuel) :
    transformLoop c fuel l (4 ^ l) (bufferAfter c src l) = bufferAfter c src c.K := by
  induction fuel generalizing l with
  | zero =>
    obtain rfl : l = c.K := by omega
    rfl
  | succ fuel ih =>
    rw [transformLoop]
    split
    next hm =>
      have hlK : l < c.K := four_pow_lt_N_iff.1 hm
      rw [← bufferAfter_succ src hlK, ← pow_succ']
      exact ih hlK (by omega)
    next hm =>
      obtain rfl : l = c.K := le_antisymm hl (Nat.le_of_not_lt (mt four_pow_lt_N_iff.2 hm))
      rfl

theorem transform_eq_bufferAfter (c : Config) (src : List Sample) : transform c src = bufferAfter c src c.K :=
  transformLoop_eq_bufferAfter src (Nat.zero_le _) (by omega)

/-- Settles O24: at `l = 0` the loop has all `K` layers before it. -/
theorem transformIsExactlyKLayers : Obligations.TransformIsExactlyKLayers :=
  fun c src _ _ hfuel =>
    ⟨transformLoop_eq_bufferAfter src (Nat.zero_le _) hfuel, transform_eq_bufferAfter c src⟩

end Sys2Proof.Machine

/-!
`TRANSFORM` phase by phase (spec/42_orchestrator.md R161 to R165): where the block stands before each layer, and what the
layer does from there.
-/

namespace Sys2Proof.Machine

/-! ### Frames and contents from one phase to the next -/

theorem CommandFrame.trans {s t u : State} (h : CommandFrame s t) (h' : CommandFrame t u) : CommandFrame s u :=
  ⟨h'.cfg.trans h.cfg, h'.arg0.trans h.arg0, h'.arg1.trans h.arg1, h'.arg2.trans h.arg2, h'.src.trans h.src,
    h'.grain.trans h.grain, h'.pending.trans h.pending, h'.rdata.trans h.rdata, h'.result.trans h.result⟩

theorem commandFrame_of_advance {s t : State} (h : advance s = .next t) : CommandFrame s t :=
  let ⟨hcfg, h0, h1, h2, hsrc, hgrain, hpending, hrdata, hresult⟩ := advance_keeps h
  ⟨hcfg, h0, h1, h2, hsrc, hgrain, hpending, hrdata, hresult⟩

theorem DstBecomes.buffer? {s t : State} {buf : List Sample} (h : DstBecomes s t buf) (hlen : buf.length = s.cfg.N) :
    Mem.buffer? t.dst s.cfg.N = some buf :=
  (Mem.buffer?_eq_some_iff ..).2 ⟨hlen, h.1⟩

/-- The contents of `DST` are judged by the build and the entries beyond it alone. -/
theorem DstBecomes.trans {s t u : State} {buf buf' : List Sample} (h : DstBecomes s t buf) (hcfg : t.cfg = s.cfg)
    (h' : DstBecomes t u buf') : DstBecomes s u buf' := by
  obtain ⟨-, hbeyond⟩ := h
  obtain ⟨hentries, hbeyond'⟩ := h'
  rw [hcfg] at hentries hbeyond'
  exact ⟨hentries, fun i hi => (hbeyond' i hi).trans (hbeyond i hi)⟩

/-! ### Before layer `l` -/

/-- A `TRANSFORM` issued in `s`, where `SRC` held `buf`, has done the reorder and `l` layers; `w` is `SCHED[l]` (R162,
R163). -/
structure BeforeLayer (s : State) (buf : List Sample) (l : Nat) (w : Word) (t : State) : Prop where
  status : t.status = ⟨true, false⟩
  sched : s.cfg.sched[l]? = some w
  seq : t.seq = ⟨.layer, true, l, 4 ^ l, w⟩
  dst : DstBecomes s t (bufferAfter s.cfg buf l)
  frame : CommandFrame s t

section Layers

variable {s t : State} {buf : List Sample} {l : Nat} {w : Word}

/-- R162: the reorder phase of a `TRANSFORM`. -/
theorem beforeLayer_atFirstLayer (hw : s.cfg.sched[0]? = some w) : BeforeLayer s buf 0 w (s.atFirstLayer buf w) where
  status := rfl
  sched := hw
  seq := rfl
  dst := dstBecomes_of_store rfl (reorder_length s.cfg buf)
  frame := by constructor <;> rfl

theorem advance_accept_transform (hbuf : Mem.buffer? s.src s.cfg.N = some buf) (hw : s.cfg.sched[0]? = some w) :
    advance (s.accept ⟨.reorder, true, 0, 1, s.seq.tws⟩) = .next (s.atFirstLayer buf w) :=
  advance_eq_next_iff.2 (.inr (.inl ⟨rfl, buf, hbuf, afterReorder_eq_next_iff.2 (.inl ⟨rfl, w, hw, rfl⟩)⟩))

/-- R163: the work of layer `l`. -/
theorem BeforeLayer.advance_eq (h : BeforeLayer s buf l w t) (hcfg : s.cfg.cfgOk = true) (hl : l < s.cfg.K) :
    advance t = afterLayer (t.storeDst (bufferAfter s.cfg buf (l + 1))) := by
  obtain ⟨w', hw', hreach⟩ := Config.exists_sched_of_cfgOk hcfg hl
  obtain rfl : w = w' := Option.some.inj (h.sched.symm.trans hw')
  have hsched : schedAt s.cfg l = w.toNat := by simp [schedAt, hw']
  have hbuf := h.dst.buffer? (bufferAfter_length buf hl.le)
  have hwork := layerPhase_of_buffer (s := t) (buf := bufferAfter s.cfg buf l)
  rw [h.frame.cfg, h.seq] at hwork
  rw [advance_of_layer (by rw [h.seq]), hwork hreach hbuf, bufferAfter_succ buf hl, hsched]

theorem BeforeLayer.dst_storeDst (h : BeforeLayer s buf l w t) (hl : l < s.cfg.K) :
    DstBecomes s (t.storeDst (bufferAfter s.cfg buf (l + 1))) (bufferAfter s.cfg buf (l + 1)) :=
  h.dst.trans h.frame.cfg (dstBecomes_of_store rfl (by rw [h.frame.cfg, bufferAfter_length buf hl]))

/-- R163: while `4*m < N` the next layer follows. -/
theorem BeforeLayer.advance_next (h : BeforeLayer s buf l w t) (hcfg : s.cfg.cfgOk = true) (hl : l + 1 < s.cfg.K) :
    ∃ t' w', advance t = .next t' ∧ BeforeLayer s buf (l + 1) w' t' := by
  have hlK : l < s.cfg.K := Nat.lt_of_succ_lt hl
  obtain ⟨w', hw', -⟩ := Config.exists_sched_of_cfgOk hcfg hl
  have hm : 4 * 4 ^ l < s.cfg.N := pow_succ' 4 l ▸ four_pow_lt_N_iff.2 hl
  have hadv : advance t = .next
      ((t.storeDst (bufferAfter s.cfg buf (l + 1))).toPhase ⟨.layer, true, l + 1, 4 ^ (l + 1), w'⟩) := by
    rw [h.advance_eq hcfg hlK]
    refine afterLayer_eq_next_iff.2 (.inl ?_)
    simp [h.seq, h.frame.cfg, hm, hw', pow_succ']
  exact ⟨_, w', hadv, h.status, hw', rfl, h.dst_storeDst hlK, h.frame.trans (commandFrame_of_advance hadv)⟩

/-- R165: after the last layer the command completes. -/
theorem BeforeLayer.advance_last (h : BeforeLayer s buf l w t) (hcfg : s.cfg.cfgOk = true) (hl : l + 1 = s.cfg.K) :
    ∃ u, advance t = .next u ∧ Completed u ∧ DstBecomes s u (bufferAfter s.cfg buf s.cfg.K) ∧ CommandFrame s u := by
  have hlK : l < s.cfg.K := by omega
  have hm : ¬ 4 * 4 ^ l < s.cfg.N := by
    rw [← pow_succ', four_pow_lt_N_iff]
    omega
  have hadv : advance t = .next (t.storeDst (bufferAfter s.cfg buf (l + 1))).complete := by
    rw [h.advance_eq hcfg hlK]
    refine afterLayer_eq_next_iff.2 (.inr ⟨?_, rfl⟩)
    simp [h.seq, h.frame.cfg, hm]
  exact ⟨_, hadv, ⟨rfl, rfl⟩, hl ▸ h.dst_storeDst hlK, h.frame.trans (commandFrame_of_advance hadv)⟩

/-! ### The whole command -/

theorem runPhases_succ_of_next {n : Nat} {a t : State} (h : runPhases n a = .next t) :
    runPhases (n + 1) a = advance t := by
  rw [runPhases_add, h, andThen_next, runPhases_one]

variable (hcfg : s.cfg.cfgOk = true) (hbuf : Mem.buffer? s.src s.cfg.N = some buf)
include hcfg hbuf

/-- The reorder and `l` layers bring a `TRANSFORM` before layer `l`. -/
theorem runPhases_beforeLayer (hl : l < s.cfg.K) :
    ∃ t w, runPhases (l + 1) (s.accept ⟨.reorder, true, 0, 1, s.seq.tws⟩) = .next t ∧ BeforeLayer s buf l w t := by
  induction l with
  | zero =>
    obtain ⟨w, hw, -⟩ := Config.exists_sched_of_cfgOk hcfg hl
    exact ⟨_, w, (runPhases_one _).trans (advance_accept_transform hbuf hw), beforeLayer_atFirstLayer hw⟩
  | succ l ih =>
    obtain ⟨t, w, ht, hbefore⟩ := ih (Nat.lt_of_succ_lt hl)
    obtain ⟨t', w', ht', hnext⟩ := hbefore.advance_next hcfg hl
    exact ⟨t', w', (runPhases_succ_of_next ht).trans ht', hnext⟩

/-- The reorder and `K` layers complete a `TRANSFORM`. -/
theorem runPhases_transform :
    ∃ u, runPhases (s.cfg.K + 1) (s.accept ⟨.reorder, true, 0, 1, s.seq.tws⟩) = .next u ∧ Completed u ∧
      DstBecomes s u (bufferAfter s.cfg buf s.cfg.K) ∧ CommandFrame s u := by
  obtain ⟨l, hl⟩ := Nat.exists_eq_add_of_lt (Config.K_pos_of_cfgOk hcfg)
  have hK : l + 1 = s.cfg.K := by omega
  obtain ⟨t, w, ht, hbefore⟩ := runPhases_beforeLayer hcfg hbuf (l := l) (by omega)
  obtain ⟨u, hu, hend⟩ := hbefore.advance_last hcfg hK
  exact ⟨u, (hK ▸ runPhases_succ_of_next ht).trans hu, hend⟩

end Layers

theorem acceptTransform_of_buffer {s : State} {buf : List Sample} (hbusy : s.status.busy = false)
    (hcfg : s.cfg.cfgOk = true) (hbuf : Mem.buffer? s.src s.cfg.N = some buf) :
    acceptTransform s = .next (s.accept ⟨.reorder, true, 0, 1, s.seq.tws⟩) :=
  acceptTransform_eq_next_iff.2 ⟨hbusy, hcfg, (Mem.allWritten_iff_buffer _ _).2 ⟨buf, hbuf⟩, rfl⟩

/-- Settles O25: acceptance, then induction on the number of layers that are done. -/
theorem transformPassesThroughItsPhases : Obligations.TransformPassesThroughItsPhases := by
  intro s buf hbusy hcfg hbuf
  refine ⟨_, acceptTransform_of_buffer hbusy hcfg hbuf, ⟨rfl, rfl, commandFrame_accept s _⟩, rfl, rfl, rfl, rfl,
    fun l hl => ?_, runPhases_transform hcfg hbuf⟩
  obtain ⟨t, w, ht, h⟩ := runPhases_beforeLayer hcfg hbuf hl
  exact ⟨t, w, ht, h.status, h.sched, h.seq, h.dst, h.frame⟩

/-- Settles O26: the phases leave the buffer after `K` layers, which is the transform. -/
theorem transformCompletesWithTransformOfSrc : Obligations.TransformCompletesWithTransformOfSrc := by
  intro s buf hbusy hcfg hbuf
  obtain ⟨t, ht, hdone, hdst, hframe⟩ := runPhases_transform hcfg hbuf
  refine ⟨t, ?_, hdone, hframe, transform_eq_bufferAfter s.cfg buf ▸ hdst⟩
  rw [exec_eq_accept_runPhases, show accept .transform s = _ from acceptTransform_of_buffer hbusy hcfg hbuf,
    andThen_next]
  exact ht

end Sys2Proof.Machine

/-!
Programs of commands and `WAIT`s, in either grain (spec/30_encoding.md R87, R88; log 3), and the two programs of
spec/42_orchestrator.md R166: a command followed by `WAIT` leaves what the whole command leaves, but for the host's own
record of what is pending and of the words it has read.
-/

namespace Sys2Proof.Machine

/-! ### Runs put together -/

/-- Some number of steps leads from `s` to `t`, with no violation of the contract. -/
def Reaches (s t : State) : Prop := ∃ n, runSteps n s = .next t

theorem runSteps_succ (n : Nat) (s : State) : runSteps (n + 1) s = andThen (step s) (runSteps n) := by
  cases h : step s with
  | next t => simp [runSteps, Host.Core.run, core, h]
  | fault r => cases r
  | refused r => simp [runSteps, Host.Core.run, core, h]

theorem Reaches.refl (s : State) : Reaches s s := ⟨0, rfl⟩

theorem Reaches.head {s t u : State} (h : step s = .next t) : Reaches t u → Reaches s u
  | ⟨n, hn⟩ => ⟨n + 1, by rw [runSteps_succ, h, andThen_next, hn]⟩

theorem Reaches.trans {s t u : State} (h : Reaches s t) (h' : Reaches t u) : Reaches s u := by
  obtain ⟨n, hn⟩ := h
  induction n generalizing s with
  | zero => cases hn; exact h'
  | succ n ih =>
    rw [runSteps_succ] at hn
    obtain ⟨v, hv, hrest⟩ := andThen_eq_next_iff.1 hn
    exact .head hv (ih hrest)

/-! ### The host's record -/

/-- The same block, with another record of what is pending and of the words the host has read. -/
def State.withHost (s : State) (ops : List HostOp) (words : List Word) : State :=
  { s with pending := ops, rdata := words }

/-- No phase reads the host's record. -/
theorem advance_withHost {s t : State} (h : advance s = .next t) (ops : List HostOp) (words : List Word) :
    advance (s.withHost ops words) = .next (t.withHost ops words) := by
  obtain ⟨hp, rfl⟩ | ⟨hp, buf, hbuf, h⟩ | ⟨hp, hreach, buf, hbuf, h⟩ := advance_eq_next_iff.1 h
  · exact advance_of_idle hp
  · refine advance_eq_next_iff.2 (.inr (.inl ⟨hp, buf, hbuf, afterReorder_eq_next_iff.2 ?_⟩))
    obtain ⟨hc, w, hw, rfl⟩ | ⟨hc, rfl⟩ := afterReorder_eq_next_iff.1 h
    · exact .inl ⟨hc, w, hw, rfl⟩
    · exact .inr ⟨hc, rfl⟩
  · refine advance_eq_next_iff.2 (.inr (.inr ⟨hp, hreach, buf, hbuf, afterLayer_eq_next_iff.2 ?_⟩))
    obtain ⟨hc, hm, w, hw, rfl⟩ | ⟨hlast, rfl⟩ := afterLayer_eq_next_iff.1 h
    · exact .inl ⟨hc, hm, w, hw, rfl⟩
    · exact .inr ⟨hlast, rfl⟩

theorem runPhases_withHost {n : Nat} {s t : State} (h : runPhases n s = .next t) (ops : List HostOp)
    (words : List Word) : runPhases n (s.withHost ops words) = .next (t.withHost ops words) := by
  induction n generalizing s with
  | zero => cases h; rfl
  | succ n ih =>
    obtain ⟨u, hu, hrest⟩ := andThen_eq_next_iff.1 h
    rw [runPhases_succ, advance_withHost hu, andThen_next, ih hrest]

/-! ### `WAIT` -/

/-- A block that is not busy runs no phase, and the sequencer keeps it so (10_state.md R25). -/
theorem idle_of_not_busy_of_advance {s t : State} (h : s.status.busy = false → s.seq.phase = .idle)
    (ht : advance s = .next t) (hbusy : t.status.busy = false) : t.seq.phase = .idle := by
  obtain ⟨hp, rfl⟩ | ⟨hp, buf, -, ht⟩ | ⟨hp, -, buf, -, ht⟩ := advance_eq_next_iff.1 ht
  · exact hp
  · obtain ⟨-, w, -, rfl⟩ | ⟨-, rfl⟩ := afterReorder_eq_next_iff.1 ht
    · cases hp.symm.trans (h hbusy)
    · rfl
  · obtain ⟨-, -, w, -, rfl⟩ | ⟨-, rfl⟩ := afterLayer_eq_next_iff.1 ht
    · cases hp.symm.trans (h hbusy)
    · rfl

section Wait

variable {s t : State} {rest : List HostOp}

theorem step_wait_of_not_busy (hp : s.pending = .wait :: rest) (hbusy : s.status.busy = false) :
    step s = .next (s.withHost rest (statusWord s.status :: s.rdata)) := by
  rw [step_of_action hp, hostAction, waitTurn_eq, State.withPending_status, hbusy]
  rfl

theorem step_wait_of_busy (hp : s.pending = .wait :: rest) (hbusy : s.status.busy = true)
    (ht : advance s = .next t) :
    step s = .next (t.withHost (.wait :: rest) (statusWord s.status :: s.rdata)) := by
  have hadv : advance ((s.withPending rest).give (statusWord s.status)) = _ :=
    advance_withHost ht rest (statusWord s.status :: s.rdata)
  rw [step_of_action hp, hostAction, waitTurn_eq, State.withPending_status, if_pos hbusy, hadv]
  rfl

/-- `WAIT` ends where the phases of the running command end (log 15). -/
theorem reaches_of_wait {n : Nat} (hp : s.pending = .wait :: rest)
    (hidle : s.status.busy = false → s.seq.phase = .idle) (hrun : runPhases n s = .next t)
    (hdone : t.status.busy = false) : ∃ words, Reaches s (t.withHost rest words) := by
  induction n generalizing s t with
  | zero =>
    cases hrun
    exact ⟨_, .head (step_wait_of_not_busy hp hdone) (.refl _)⟩
  | succ n ih =>
    cases hbusy : s.status.busy with
    | false =>
      rw [runPhases_of_idle (hidle hbusy)] at hrun
      cases hrun
      exact ⟨_, .head (step_wait_of_not_busy hp hdone) (.refl _)⟩
    | true =>
      obtain ⟨u, hu, hrest⟩ := andThen_eq_next_iff.1 hrun
      obtain ⟨words, hreach⟩ := ih (s := u.withHost (.wait :: rest) (statusWord s.status :: s.rdata)) rfl
        (idle_of_not_busy_of_advance (t := u) hidle hu) (runPhases_withHost hrest _ _) hdone
      exact ⟨words, .head (step_wait_of_busy hp hbusy hu) hreach⟩

end Wait

/-! ### A command and its `WAIT` -/

/-- Acceptance of a command that has phases leaves the block busy and everything else but `SEQ` alone. -/
theorem eq_accept_of_accept {i : Instr} {s a : State} (hi : i ≠ .warmup) (h : accept i s = .next a) :
    ∃ q, a = s.accept q := by
  cases i with
  | warmup => exact absurd rfl hi
  | reorder =>
    obtain ⟨-, -, ha⟩ := acceptReorder_eq_next_iff.1 h
    exact ⟨_, ha⟩
  | runlayer =>
    obtain ⟨-, -, -, -, -, ha⟩ := acceptRunlayer_eq_next_iff.1 h
    exact ⟨_, ha⟩
  | transform =>
    obtain ⟨-, -, -, ha⟩ := acceptTransform_eq_next_iff.1 h
    exact ⟨_, ha⟩

section Registers

variable {s : State} {rest : List HostOp}

/-- A write of a register of the block. -/
theorem step_write_reg {o : Nat} {w : Word} {t : Target} (hp : s.pending = wr4 (s.cfg.regBase + o) w :: rest)
    (hbase : s.cfg.regBase % 4 = 0) (ho : o % 4 = 0) (ho' : o < 0x18) (ht : regAt o = some t) :
    step s = writeTarget t w (s.withPending rest) :=
  step_write_of_target hp (by omega) ((targetAt_reg s.cfg ho').trans ht)

theorem step_cmdWrite {i : Instr} (hp : s.pending = cmdWrite s.cfg i :: rest) (hbase : s.cfg.regBase % 4 = 0) :
    step s = issue i (s.withPending rest) := by
  rw [step_write_reg (o := 0x00) hp hbase rfl (by decide) rfl, writeTarget, writeCmd, decode_encode]

/-- In either grain a command and its `WAIT` leave what the whole command leaves. -/
theorem reaches_of_exec {t : State} {i : Instr} (hi : i ≠ .warmup)
    (hp : s.pending = cmdWrite s.cfg i :: .wait :: rest) (hbase : s.cfg.regBase % 4 = 0)
    (hexec : exec i (s.withPending (.wait :: rest)) = .next t) (hdone : Completed t)
    (hframe : CommandFrame (s.withPending (.wait :: rest)) t) : ∃ words, Reaches s (t.withHost rest words) := by
  obtain ⟨hphase, hstatus⟩ := hdone
  have hfree : t.status.busy = false := by rw [hstatus]
  have hissue := step_cmdWrite hp hbase
  cases hg : s.grain with
  | command =>
    rw [issue, State.withPending_grain, hg] at hissue
    obtain ⟨words, hreach⟩ := reaches_of_wait (n := 0) hframe.pending (fun _ => hphase) rfl hfree
    exact ⟨words, .head (hissue.trans hexec) hreach⟩
  | phase =>
    rw [issue, State.withPending_grain, hg] at hissue
    rw [exec_eq_accept_runPhases] at hexec
    obtain ⟨a, ha, hrun⟩ := andThen_eq_next_iff.1 hexec
    obtain ⟨q, rfl⟩ := eq_accept_of_accept hi ha
    obtain ⟨words, hreach⟩ := reaches_of_wait (s := (s.withPending (.wait :: rest)).accept q) rfl nofun hrun hfree
    exact ⟨words, .head (hissue.trans ha) hreach⟩

/-! ### The operand registers -/

/-- The operand registers hold the three words. -/
def State.withOperands (s : State) (tws stride groups : Word) : State :=
  { s with arg0 := tws, arg1 := stride, arg2 := groups }

section Writes

variable {w : Word} (hbase : s.cfg.regBase % 4 = 0) (hbusy : s.status.busy = false)
include hbase hbusy

theorem step_write_arg0 (hp : s.pending = wr4 (s.cfg.regBase + 0x08) w :: rest) :
    step s = .next { s with arg0 := w, pending := rest } := by
  rw [step_write_reg hp hbase rfl (by decide) rfl, writeTarget, State.withPending_status, hbusy]
  rfl

theorem step_write_arg1 (hp : s.pending = wr4 (s.cfg.regBase + 0x0C) w :: rest) :
    step s = .next { s with arg1 := w, pending := rest } := by
  rw [step_write_reg hp hbase rfl (by decide) rfl, writeTarget, State.withPending_status, hbusy]
  rfl

theorem step_write_arg2 (hp : s.pending = wr4 (s.cfg.regBase + 0x10) w :: rest) :
    step s = .next { s with arg2 := w, pending := rest } := by
  rw [step_write_reg hp hbase rfl (by decide) rfl, writeTarget, State.withPending_status, hbusy]
  rfl

/-- The three register writes of a `RUNLAYER` line (R87). -/
theorem reaches_withOperands {w0 w1 w2 : Word}
    (hp : s.pending = wr4 (s.cfg.regBase + 0x08) w0 :: wr4 (s.cfg.regBase + 0x0C) w1 ::
      wr4 (s.cfg.regBase + 0x10) w2 :: rest) :
    Reaches s ((s.withOperands w0 w1 w2).withPending rest) :=
  .head (step_write_arg0 hbase hbusy hp)
    (.head (step_write_arg1 hbase hbusy rfl) (.head (step_write_arg2 hbase hbusy rfl) (.refl _)))

end Writes

/-- What a `RUNLAYER` line with legal operands and its `WAIT` leave, in either grain (R87, R140). -/
theorem reaches_runlayer {tws stride groups : Nat} {buf : List Sample}
    (hp : s.pending = assemble s.cfg [.runlayer tws stride groups, .wait] ++ rest)
    (hbase : s.cfg.regBase % 4 = 0) (hbusy : s.status.busy = false)
    (htws : tws < 2 ^ 32) (hstride : stride < 2 ^ 32) (hgroups : groups < 2 ^ 32)
    (h4 : 4 ≤ stride) (hmod : stride % 4 = 0) (hN : groups * stride = s.cfg.N)
    (hreach : tws + 3 * (stride / 4 - 1) < s.cfg.twlen) (hbuf : Mem.buffer? s.dst s.cfg.N = some buf) :
    ∃ u, Reaches s u ∧ u.pending = rest ∧ u.cfg = s.cfg ∧ u.src = s.src ∧ u.status = ⟨false, true⟩ ∧
      DstBecomes s u (layer s.cfg buf tws stride groups) ∧
      u.arg0.toNat = tws ∧ u.arg1.toNat = stride ∧ u.arg2.toNat = groups := by
  have h0 : (BitVec.ofNat 32 tws).toNat = tws := Nat.mod_eq_of_lt htws
  have h1 : (BitVec.ofNat 32 stride).toNat = stride := Nat.mod_eq_of_lt hstride
  have h2 : (BitVec.ofNat 32 groups).toNat = groups := Nat.mod_eq_of_lt hgroups
  have hset := reaches_withOperands hbase hbusy hp
  obtain ⟨-, t, hexec, hdone, hframe, hdst⟩ := runlayerCompletesWithLayerOfDst
    ((s.withOperands (.ofNat 32 tws) (.ofNat 32 stride) (.ofNat 32 groups)).withPending (.wait :: rest)) buf hbusy
    (by rwa [← h1] at h4) (by rwa [← h1] at hmod) (by rwa [← h1, ← h2] at hN) (by rwa [← h0, ← h1] at hreach) hbuf
  obtain ⟨words, hrun⟩ := reaches_of_exec (i := .runlayer)
    (s := (s.withOperands (.ofNat 32 tws) (.ofNat 32 stride) (.ofNat 32 groups)).withPending
      (cmdWrite s.cfg .runlayer :: .wait :: rest)) (by decide) rfl hbase hexec hdone hframe
  refine ⟨_, hset.trans hrun, rfl, hframe.cfg, hframe.src, hdone.2, ?_, (congrArg BitVec.toNat hframe.arg0).trans h0,
    (congrArg BitVec.toNat hframe.arg1).trans h1, (congrArg BitVec.toNat hframe.arg2).trans h2⟩
  rw [← h0, ← h1, ← h2]
  exact hdst

end Registers

/-! ### The operands of the chain's layers (R166) -/

theorem schedAt_lt (c : Config) (l : Nat) : schedAt c l < 2 ^ 32 := (c.sched.getD l 0).isLt

theorem four_pow_dvd_N {c : Config} {l : Nat} (hl : l ≤ c.K) : 4 ^ l ∣ c.N := pow_dvd_pow 4 hl

theorem N_pos (c : Config) : 0 < c.N := Nat.pow_pos (by decide)

section Operands

variable {c : Config} (hcfg : c.cfgOk = true)
include hcfg

theorem N_lt_two_pow : c.N < 2 ^ 32 := by
  have hK : c.K ≤ 15 := by
    simp only [Config.cfgOk, Config.sizeOk, Bool.and_eq_true, decide_eq_true_eq] at hcfg
    obtain ⟨⟨⟨-, hK⟩, -⟩, -⟩ := hcfg
    exact hK
  have hN : c.N ≤ 4 ^ 15 := Nat.pow_le_pow_right (by decide) hK
  omega

/-- R141 holds of each layer of the chain. -/
theorem chainLayer_legal {l : Nat} (hl : l < c.K) :
    4 ≤ 4 ^ (l + 1) ∧ 4 ^ (l + 1) % 4 = 0 ∧ c.N / 4 ^ (l + 1) * 4 ^ (l + 1) = c.N ∧
      schedAt c l + 3 * (4 ^ (l + 1) / 4 - 1) < c.twlen := by
  obtain ⟨w, hw, hreach⟩ := Config.exists_sched_of_cfgOk hcfg hl
  have hsched : schedAt c l = w.toNat := by simp [schedAt, hw]
  refine ⟨Nat.le_self_pow (by omega) 4, ?_, Nat.div_mul_cancel (four_pow_dvd_N hl), ?_⟩
  · rw [pow_succ, Nat.mul_mod_left]
  · rw [pow_succ, Nat.mul_div_cancel _ (by decide), hsched]
    exact (reachOk_iff ..).1 hreach

end Operands

/-! ### The chain of commands (R166) -/

/-- In `t` the commands up to and with layer `l - 1` of the chain have completed; `SRC` held `buf` in `s`, where the chain
began. -/
structure AfterChain (s : State) (buf : List Sample) (l : Nat) (t : State) : Prop where
  cfg : t.cfg = s.cfg
  src : t.src = s.src
  status : t.status = ⟨false, true⟩
  dst : DstBecomes s t (bufferAfter s.cfg buf l)
  operands : ∀ j, j + 1 = l →
    t.arg0.toNat = schedAt s.cfg j ∧ t.arg1.toNat = 4 ^ l ∧ t.arg2.toNat = s.cfg.N / 4 ^ l

/-- The lines of the chain for layer `l`. -/
def chainLayer (c : Config) (l : Nat) : List AsmLine :=
  [.runlayer (schedAt c l) (4 ^ (l + 1)) (c.N / 4 ^ (l + 1)), .wait]

theorem assemble_chainProgram (c : Config) :
    assemble c (chainProgram c) =
      cmdWrite c .reorder :: .wait :: (List.range' 0 c.K).flatMap fun l => assemble c (chainLayer c l) := by
  rw [assemble, chainProgram, List.flatMap_append, List.flatMap_assoc, List.range_eq_range']
  rfl

section Chain

variable {s : State} {buf : List Sample}

theorem reaches_reorder {rest : List HostOp} (hp : s.pending = cmdWrite s.cfg .reorder :: .wait :: rest)
    (hbase : s.cfg.regBase % 4 = 0) (hbusy : s.status.busy = false) (hbuf : Mem.buffer? s.src s.cfg.N = some buf) :
    ∃ t, Reaches s t ∧ t.pending = rest ∧ AfterChain s buf 0 t := by
  obtain ⟨-, t, hexec, hdone, hframe, hdst⟩ :=
    reorderCompletesWithBitReversedCopy (s.withPending (.wait :: rest)) buf hbusy hbuf
  obtain ⟨words, hreach⟩ := reaches_of_exec (by decide) hp hbase hexec hdone hframe
  exact ⟨_, hreach, rfl, hframe.cfg, hframe.src, hdone.2, hdst, nofun⟩

variable (hbase : s.cfg.regBase % 4 = 0) (hcfg : s.cfg.cfgOk = true)
include hbase hcfg

/-- One more layer of the chain. -/
theorem AfterChain.reaches_succ {l : Nat} {t : State} {rest : List HostOp} (h : AfterChain s buf l t)
    (hl : l < s.cfg.K) (hp : t.pending = assemble s.cfg (chainLayer s.cfg l) ++ rest) :
    ∃ u, Reaches t u ∧ u.pending = rest ∧ AfterChain s buf (l + 1) u := by
  have hbuf := h.dst.buffer? (bufferAfter_length buf hl.le)
  obtain ⟨h4, hmod, hN, hreach⟩ := chainLayer_legal hcfg hl
  have hstride : 4 ^ (l + 1) ≤ s.cfg.N := Nat.le_of_dvd (N_pos _) (four_pow_dvd_N hl)
  have hword {x : Nat} (hx : x ≤ s.cfg.N) : x < 2 ^ 32 := hx.trans_lt (N_lt_two_pow hcfg)
  have hgroups : s.cfg.N / 4 ^ (l + 1) < 2 ^ 32 := hword (Nat.div_le_self ..)
  rw [← h.cfg] at hp hbase hN hreach hbuf hgroups
  obtain ⟨u, hu, hrest, hkeep, hsrc, hstatus, hdst, h0, h1, h2⟩ := reaches_runlayer hp hbase (by rw [h.status])
    (schedAt_lt _ l) (hword hstride) hgroups h4 hmod hN hreach hbuf
  rw [h.cfg] at hdst h0 h2
  refine ⟨u, hu, hrest, hkeep.trans h.cfg, hsrc.trans h.src, hstatus, ?_, ?_⟩
  · rw [bufferAfter_succ buf hl, ← pow_succ']
    exact h.dst.trans h.cfg hdst
  · intro j hj
    cases hj
    exact ⟨h0, h1, h2⟩

/-- The layers of the chain from `l` on. -/
theorem AfterChain.reaches_end {n l : Nat} {t : State} {rest : List HostOp} (h : AfterChain s buf l t)
    (hl : l + n = s.cfg.K)
    (hp : t.pending = (List.range' l n).flatMap (fun l => assemble s.cfg (chainLayer s.cfg l)) ++ rest) :
    ∃ u, Reaches t u ∧ u.pending = rest ∧ AfterChain s buf s.cfg.K u := by
  induction n generalizing l t with
  | zero => exact ⟨t, .refl t, hp, hl ▸ h⟩
  | succ n ih =>
    rw [List.range'_succ, List.flatMap_cons, List.append_assoc] at hp
    obtain ⟨u, hu, hpu, hnext⟩ := h.reaches_succ hbase hcfg (by omega) hp
    obtain ⟨v, hv, hend⟩ := ih hnext (by omega) hpu
    exact ⟨v, hu.trans hv, hend⟩

end Chain

/-! ### The two programs (R166) -/

theorem reaches_transform {s : State} {buf : List Sample} (hbusy : s.status.busy = false)
    (hcfg : s.cfg.cfgOk = true) (hbase : s.cfg.regBase % 4 = 0) (hbuf : Mem.buffer? s.src s.cfg.N = some buf) :
    ∃ t, Reaches (s.load [.transform, .wait]) t ∧ t.pending = s.pending ∧ t.status = ⟨false, true⟩ ∧
      DstBecomes s t (bufferAfter s.cfg buf s.cfg.K) ∧ t.src = s.src ∧
      t.arg0 = s.arg0 ∧ t.arg1 = s.arg1 ∧ t.arg2 = s.arg2 := by
  obtain ⟨t, hexec, hdone, hframe, hdst⟩ :=
    transformCompletesWithTransformOfSrc (s.withPending (.wait :: s.pending)) buf hbusy hcfg hbuf
  obtain ⟨words, hreach⟩ := reaches_of_exec (s := s.load [.transform, .wait]) (by decide) rfl hbase hexec hdone hframe
  exact ⟨_, hreach, rfl, hdone.2, transform_eq_bufferAfter s.cfg buf ▸ hdst, hframe.src, hframe.arg0, hframe.arg1,
    hframe.arg2⟩

theorem reaches_chain {s : State} {buf : List Sample} (hbusy : s.status.busy = false)
    (hcfg : s.cfg.cfgOk = true) (hbase : s.cfg.regBase % 4 = 0) (hbuf : Mem.buffer? s.src s.cfg.N = some buf) :
    ∃ u, Reaches (s.load (chainProgram s.cfg)) u ∧ u.pending = s.pending ∧
      AfterChain (s.load (chainProgram s.cfg)) buf s.cfg.K u := by
  have hp : (s.load (chainProgram s.cfg)).pending = assemble s.cfg (chainProgram s.cfg) ++ s.pending := rfl
  rw [assemble_chainProgram] at hp
  obtain ⟨t, ht, hpt, hstart⟩ := reaches_reorder hp hbase hbusy hbuf
  obtain ⟨u, hu, hend⟩ := hstart.reaches_end (s := s.load (chainProgram s.cfg)) hbase hcfg (Nat.zero_add _) hpt
  exact ⟨u, ht.trans hu, hend⟩

/-- Two states in which `DST` has become the same buffer hold the same entries, beyond it too. -/
theorem DstBecomes.get?_eq {s t u : State} {buf : List Sample} (h : DstBecomes s t buf) (h' : DstBecomes s u buf)
    (i : Nat) : Mem.get? t.dst i = Mem.get? u.dst i := by
  obtain ⟨hin, hbeyond⟩ := h
  obtain ⟨hin', hbeyond'⟩ := h'
  obtain hi | hi := Nat.lt_or_ge i s.cfg.N
  · rw [hin i hi, hin' i hi]
  · rw [hbeyond i hi, hbeyond' i hi]

/-- Settles O27: both programs leave the buffer after the reorder and `K` layers. -/
theorem transformEqualsChainOfCommands : Obligations.TransformEqualsChainOfCommands := by
  intro s hbusy hcfg hbase hsrc
  obtain ⟨buf, hbuf⟩ := (Mem.allWritten_iff_buffer _ _).1 hsrc
  obtain ⟨t, ⟨n, hn⟩, hpt, hstatus, hdst, hsrct, h0, h1, h2⟩ := reaches_transform hbusy hcfg hbase hbuf
  obtain ⟨u, ⟨k, hk⟩, hpu, hend⟩ := reaches_chain hbusy hcfg hbase hbuf
  have hK : s.cfg.K - 1 + 1 = s.cfg.K := Nat.sub_add_cancel (Config.K_pos_of_cfgOk hcfg)
  obtain ⟨hu0, hu1, hu2⟩ := hend.operands _ hK
  exact ⟨n, k, t, u, hn, hpt, hk, hpu, hdst.get?_eq hend.dst, hsrct, hend.src, hstatus, hend.status, h0, h1, h2,
    hu0, hu1, hu2.trans (Nat.div_self (N_pos _))⟩

end Sys2Proof.Machine

/-!
Input sizing against overflow (spec/70_reset_and_hazards.md R212): the argument of R143 for samples whose prescaled
components have magnitude at most `b` instead of 8192. Whatever the twiddles hold, the outputs then have magnitude at most
`7 * b`, and 4681 is the largest `b` for which that still fits 16 bits.
-/

namespace Sys2Proof.Machine

theorem withinBound_q4c_of_sampleWithin {b : Int} {x : Sample} (hx : SampleWithin (4 * b + 1) x) :
    WithinBound b (q4c x) := by
  obtain ⟨hre, hre', him, him'⟩ := hx
  obtain ⟨hlow, hhigh, -, -⟩ := q4_spec x.re
  obtain ⟨hlow', hhigh', -, -⟩ := q4_spec x.im
  simp only [WithinBound, q4c]
  omega

/-- A twiddle component has magnitude at most 1, so a rounded product is no larger than the other factor. -/
theorem abs_rq15_mul_toInt_le {b p : Int} (w : Half) (hp : |p| ≤ b) : |rq15 (p * w.toInt)| ≤ b := by
  have hw : |w.toInt| ≤ 32768 := by
    have := w.toInt_bounds
    exact abs_le.2 ⟨by omega, by omega⟩
  have hmul : |p * w.toInt| ≤ b * 32768 := by
    rw [abs_mul]
    exact mul_le_mul hp hw (abs_nonneg _) ((abs_nonneg p).trans hp)
  have := rq15_spec (p * w.toInt)
  rw [abs_le] at hmul ⊢
  omega

theorem withinBound_iff_abs {b : Int} {u : Wide} : WithinBound b u ↔ |u.re| ≤ b ∧ |u.im| ≤ b := by
  rw [abs_le, abs_le, and_assoc, WithinBound]

/-- R123: each component of a complex product is made of two rounded products. -/
theorem WithinBound.cmul_add_self {b : Int} {x : Wide} (hx : WithinBound b x) (w : Sample) :
    WithinBound (b + b) (Machine.cmul x w) := by
  obtain ⟨hre, him⟩ := withinBound_iff_abs.1 hx
  have hrr := abs_rq15_mul_toInt_le w.re hre
  have hii := abs_rq15_mul_toInt_le w.im him
  have hri := abs_rq15_mul_toInt_le w.im hre
  have hir := abs_rq15_mul_toInt_le w.re him
  exact withinBound_iff_abs.2 ⟨(abs_sub _ _).trans (add_le_add hrr hii), (abs_add_le _ _).trans (add_le_add hri hir)⟩

/-- R129 to R131 for inputs of moderate size: each output is made of `F0` and the three rotated terms. -/
theorem bflyTree_withinBound {b : Int} (dir : Dir) {x0 x1 x2 x3 : Sample} (w1 w2 w3 : Sample)
    (h0 : SampleWithin (4 * b + 1) x0) (h1 : SampleWithin (4 * b + 1) x1) (h2 : SampleWithin (4 * b + 1) x2)
    (h3 : SampleWithin (4 * b + 1) x3) :
    let t := bflyTree dir x0 x1 x2 x3 w1 w2 w3
    WithinBound (7 * b) t.y0 ∧ WithinBound (7 * b) t.y1 ∧ WithinBound (7 * b) t.y2 ∧ WithinBound (7 * b) t.y3 := by
  have f0 := withinBound_q4c_of_sampleWithin h0
  have f1 := (withinBound_q4c_of_sampleWithin h2).cmul_add_self w1
  have f2 := (withinBound_q4c_of_sampleWithin h1).cmul_add_self w2
  have f3 := (withinBound_q4c_of_sampleWithin h3).cmul_add_self w3
  have s0 := f0.wadd f2
  have d0 := f0.wsub f2
  have s1 := f1.wadd f3
  have d1 := f1.wsub f3
  have hsum : 7 * b = b + (b + b) + (b + b + (b + b)) := by ring
  rw [hsum]
  exact ⟨s0.wadd s1, d0.crossOne d1 dir, s0.wsub s1, d0.crossThree d1 dir⟩

theorem toInt_wrap16_of_bounds {z : Int} (hlow : -32768 ≤ z) (hhigh : z ≤ 32767) : (wrap16 z).toInt = z :=
  BitVec.toInt_ofInt_eq_self (by decide) hlow (Int.lt_add_one_of_le hhigh)

theorem WithinBound.storedExactly {y : Wide} (hy : WithinBound 32767 y) : StoredExactly (wrap16c y) y := by
  obtain ⟨hre, hre', him, him'⟩ := hy
  exact ⟨toInt_wrap16_of_bounds (by omega) hre', toInt_wrap16_of_bounds (by omega) him'⟩

/-- Settles O13: `18725 = 4 * 4681 + 1`, and `7 * 4681 = 32767`. -/
theorem moderateInputsNeverWrap : Obligations.ModerateInputsNeverWrap := by
  intro dir x0 x1 x2 x3 w1 w2 w3 h0 h1 h2 h3
  obtain ⟨y0, y1, y2, y3⟩ := bflyTree_withinBound (b := 4681) dir w1 w2 w3 h0 h1 h2 h3
  exact ⟨y0.storedExactly, y1.storedExactly, y2.storedExactly, y3.storedExactly⟩

end Sys2Proof.Machine

/-!
Words as bytes (spec/20_memory.md R53), those of a command word and those a platform bridge shows of a sample window;
the value of `wrap16` (spec/00_scope.md R15); the fields of `STATUS` and `CFG` (spec/10_state.md R25, R28).
-/

namespace Sys2Proof

/-- The four bytes of a word are those it was put together from. -/
theorem bytesOfWord_wordOfBytes (b0 b1 b2 b3 : Byte) : bytesOfWord (wordOfBytes b0 b1 b2 b3) = [b0, b1, b2, b3] := by
  have h0 := b0.isLt
  have h1 := b1.isLt
  have h2 := b2.isLt
  have h3 := b3.isLt
  have hbyte {lo : Nat} {b : Byte} (h : (wordOfBytes b0 b1 b2 b3).toNat / 2 ^ lo % 2 ^ 8 = b.toNat) :
      (wordOfBytes b0 b1 b2 b3).extractLsb' lo 8 = b :=
    BitVec.eq_of_toNat_eq ((toNat_field _ lo 8).trans h)
  rw [bytesOfWord]
  congr
  all_goals
    apply hbyte
    rw [toNat_wordOfBytes]
    omega

/-- Bytes that decode to a command begin with that command's word. -/
theorem eq_encodeBytes_append_of_decodeBytes {bs rest : List Byte} {i : Instr} (h : decodeBytes bs = .ok (i, rest)) :
    bs = encodeBytes i ++ rest := by
  unfold decodeBytes at h
  split at h
  next b0 b1 b2 b3 tail =>
    split at h <;> cases h
    next hword =>
      rw [encodeBytes, ← decode_eq_ok_iff.1 hword, bytesOfWord_wordOfBytes]
      rfl
  next => cases h

/-- Settles O3: a word decodes to a command exactly when it is the encoder's, and its bytes put it together again. -/
theorem byteDecodingInvertsEncoding : Obligations.ByteDecodingInvertsEncoding := by
  refine fun bs rest i => ⟨eq_encodeBytes_append_of_decodeBytes, ?_⟩
  rintro rfl
  obtain ⟨-, -, -, hbytes⟩ := encodeDecode_statement i
  exact hbytes rest

namespace Machine

/-! ### The bytes of the sample windows -/

theorem targetAt_src_byte {c : Config} (h : c.windowsDisjoint = true) {i b : Nat} (hi : i < c.N) (hb : b < 4) :
    targetAt c (c.srcBase + 4 * i + b) = some (.src i) := by
  simp only [Config.windowsDisjoint, windowsApart, Bool.and_eq_true, Bool.or_eq_true, decide_eq_true_eq] at h
  rw [targetAt, if_neg (by omega), if_pos (by omega), show (c.srcBase + 4 * i + b - c.srcBase) / 4 = i by omega]

theorem targetAt_dst_byte {c : Config} (h : c.windowsDisjoint = true) {i b : Nat} (hi : i < c.N) (hb : b < 4) :
    targetAt c (c.dstBase + 4 * i + b) = some (.dst i) := by
  simp only [Config.windowsDisjoint, windowsApart, Bool.and_eq_true, Bool.or_eq_true, decide_eq_true_eq] at h
  rw [targetAt, if_neg (by omega), if_neg (by omega), if_pos (by omega),
    show (c.dstBase + 4 * i + b - c.dstBase) / 4 = i by omega]

theorem toNat_byteOf (w : Word) (b : Nat) : (byteOf w b).toNat = w.toNat / 2 ^ (8 * b) % 256 :=
  toNat_field w (8 * b) 8

theorem byteAt_of_target_src {s : State} {a i : Nat} (ht : targetAt s.cfg a = some (.src i)) :
    s.byteAt a = (Mem.get? s.src i).map fun x => byteOf (pack x) ((a - s.cfg.srcBase) % 4) := by
  rw [State.byteAt, ht]

theorem byteAt_of_target_dst {s : State} {a i : Nat} (ht : targetAt s.cfg a = some (.dst i)) :
    s.byteAt a = (Mem.get? s.dst i).map fun x => byteOf (pack x) ((a - s.cfg.dstBase) % 4) := by
  rw [State.byteAt, ht]

/-- Settles O5: each byte address of entry `i` reaches that entry, and its offset in the entry tells the byte. -/
theorem sampleBytesAreLittleEndian : Obligations.SampleBytesAreLittleEndian := by
  intro s i b x hmap hi hb
  obtain ⟨-, hdisj⟩ := (Config.mapOk_iff _).1 hmap
  have hoffset (base : Nat) : (base + 4 * i + b - base) % 4 = b := by omega
  refine ⟨fun hx => ⟨byteOf (pack x) b, ?_, toNat_byteOf _ _⟩, fun hx => ⟨byteOf (pack x) b, ?_, toNat_byteOf _ _⟩⟩
  · rw [byteAt_of_target_src (targetAt_src_byte hdisj hi hb), hx, hoffset, Option.map_some]
  · rw [byteAt_of_target_dst (targetAt_dst_byte hdisj hi hb), hx, hoffset, Option.map_some]

/-! ### The write-back wrap (spec/00_scope.md R15) -/

theorem toInt_wrap16 (z : Int) : (wrap16 z).toInt = (z + 32768) % 65536 - 32768 := by
  rw [wrap16, BitVec.toInt_ofInt, Int.bmod_def]
  split <;> omega

/-- Settles O6: the wrap's value, and congruent values of 16 bits are equal. -/
theorem wrapIsCongruentAndUnique : Obligations.WrapIsCongruentAndUnique := by
  refine fun z => ⟨toInt_wrap16 z, fun v hv => BitVec.eq_of_toInt_eq ?_⟩
  have hbounds := v.toInt_bounds
  rw [toInt_wrap16]
  omega

/-! ### The words of `STATUS` and `CFG` (spec/10_state.md R25, R28) -/

/-- A word below `2^n` has no bit from `n` on. -/
theorem getLsbD_of_toNat_lt {w : Word} {n b : Nat} (hw : w.toNat < 2 ^ n) (hb : n ≤ b) : w.getLsbD b = false :=
  Nat.testBit_lt_two_pow (hw.trans_le (Nat.pow_le_pow_right two_pos hb))

theorem getLsbD_zero_statusWord (st : Status) : (statusWord st).getLsbD 0 = st.busy := by
  obtain ⟨busy, done⟩ := st
  cases busy <;> cases done <;> rfl

theorem getLsbD_one_statusWord (st : Status) : (statusWord st).getLsbD 1 = st.done := by
  obtain ⟨busy, done⟩ := st
  cases busy <;> cases done <;> rfl

theorem toNat_statusWord_lt (st : Status) : (statusWord st).toNat < 2 ^ 2 := by
  obtain ⟨busy, done⟩ := st
  cases busy <;> cases done <;> decide

theorem dirBit_le_one (dir : Dir) : dirBit dir ≤ 1 := by
  cases dir <;> decide

theorem testBit_zero_dirBit_iff (dir : Dir) : (dirBit dir).testBit 0 = true ↔ dir = .inverse := by
  cases dir <;> decide

/-- The two fields of `CFG`, for a `K` that fits its field. -/
theorem toNat_cfgWord {c : Config} (hK : c.K ≤ 15) : (cfgWord c).toNat = 2 ^ 4 * dirBit c.dir + c.K := by
  have := dirBit_le_one c.dir
  rw [cfgWord, BitVec.toNat_ofNat]
  omega

theorem getLsbD_four_cfgWord_iff {c : Config} (hK : c.K ≤ 15) : (cfgWord c).getLsbD 4 = true ↔ c.dir = .inverse := by
  rw [← testBit_zero_dirBit_iff, BitVec.getLsbD, toNat_cfgWord hK, Nat.testBit_two_pow_mul_add _ (by omega)]
  rfl

/-- Settles O43: the fields do not overlap, and both words are below the first bit that has no storage. -/
theorem statusAndCfgFields : Obligations.StatusAndCfgFields := by
  refine ⟨fun st => ⟨getLsbD_zero_statusWord st, getLsbD_one_statusWord st,
    fun b hb => getLsbD_of_toNat_lt (toNat_statusWord_lt st) hb⟩, fun c _ hK => ?_⟩
  have hdir := dirBit_le_one c.dir
  refine ⟨?_, getLsbD_four_cfgWord_iff hK, fun b hb => getLsbD_of_toNat_lt (n := 5) ?_ hb⟩
  · rw [toNat_field, toNat_cfgWord hK]
    omega
  · rw [toNat_cfgWord hK]
    omega

end Machine

end Sys2Proof

/-!
Commands from acceptance to completion (spec/30_encoding.md R84; spec/42_orchestrator.md R161 to R165;
spec/70_reset_and_hazards.md R213): what acceptance leaves in `SEQ`, how many phases are then left, and what no phase
touches.
-/

namespace Sys2Proof.Machine

/-! ### Acceptance -/

/-- `SEQ` as the rule of the accepted command says (R106, R140, R161); `WARMUP` leaves it alone (R170). -/
def acceptedSeq (s : State) : Instr → Seq
  | .warmup => s.seq
  | .reorder => { s.seq with phase := .reorder, chain := false }
  | .runlayer => ⟨.layer, false, s.seq.i, s.opStride / 4, s.arg0⟩
  | .transform => ⟨.reorder, true, 0, 1, s.seq.tws⟩

/-- A command that has phases is accepted only by an idle block, and only `STATUS` and `SEQ` change. -/
theorem accept_next {i : Instr} {s a : State} (hi : i ≠ .warmup) (h : accept i s = .next a) :
    s.status.busy = false ∧ a = s.accept (acceptedSeq s i) := by
  cases i with
  | warmup => exact absurd rfl hi
  | reorder =>
    obtain ⟨hbusy, -, ha⟩ := acceptReorder_eq_next_iff.1 h
    exact ⟨hbusy, ha⟩
  | runlayer =>
    obtain ⟨hbusy, -, -, -, -, ha⟩ := acceptRunlayer_eq_next_iff.1 h
    exact ⟨hbusy, ha⟩
  | transform =>
    obtain ⟨hbusy, -, -, ha⟩ := acceptTransform_eq_next_iff.1 h
    exact ⟨hbusy, ha⟩

theorem accept_warmup_next {s a : State} (h : accept .warmup s = .next a) :
    s.status.busy = false ∧ a = { s with status := ⟨false, true⟩ } := by
  obtain ⟨hbusy, rfl⟩ := execWarmup_eq_next_iff.1 h
  exact ⟨hbusy, by rw [Status.warmed, hbusy]⟩

theorem phase_acceptedSeq_ne_idle (s : State) {i : Instr} (hi : i ≠ .warmup) : (acceptedSeq s i).phase ≠ .idle := by
  cases i with
  | warmup => exact absurd rfl hi
  | _ => nofun

/-- Acceptance touches nothing but `STATUS` and `SEQ`. -/
theorem accept_frame {i : Instr} {s a : State} (h : accept i s = .next a) : CommandFrame s a ∧ a.dst = s.dst := by
  by_cases hi : i = .warmup
  · subst hi
    obtain ⟨-, rfl⟩ := accept_warmup_next h
    exact ⟨by constructor <;> rfl, rfl⟩
  · obtain ⟨-, rfl⟩ := accept_next hi h
    exact ⟨commandFrame_accept s _, rfl⟩

theorem not_busy_of_accept {i : Instr} {s a : State} (h : accept i s = .next a) : s.status.busy = false :=
  (accept_iff_no_violation i s).1 ⟨a, h⟩ .busyWrite

/-- Settles O31: acceptance is refused exactly on a violation, and leaves the command's `SEQ` and the two flags. -/
theorem acceptanceSetsBusyAndSeq : Obligations.AcceptanceSetsBusyAndSeq := by
  refine fun i s => ⟨accept_iff_no_violation i s, fun _ => violation_of_accept_refused, fun a ha => ?_⟩
  obtain ⟨hframe, hdst⟩ := accept_frame ha
  refine ⟨not_busy_of_accept ha, hframe, hdst, ?_⟩
  cases i with
  | warmup =>
    obtain ⟨-, rfl⟩ := accept_warmup_next ha
    exact ⟨fun _ => ⟨rfl, rfl⟩, fun hi => absurd rfl hi, nofun, nofun, nofun⟩
  | reorder =>
    obtain ⟨-, rfl⟩ := accept_next (by decide) ha
    exact ⟨nofun, fun _ => rfl, fun _ => ⟨rfl, rfl⟩, nofun, nofun⟩
  | runlayer =>
    obtain ⟨-, rfl⟩ := accept_next (by decide) ha
    exact ⟨nofun, fun _ => rfl, nofun, fun _ => ⟨rfl, rfl, rfl, rfl⟩, nofun⟩
  | transform =>
    obtain ⟨-, rfl⟩ := accept_next (by decide) ha
    exact ⟨nofun, fun _ => rfl, nofun, nofun, fun _ => ⟨rfl, rfl, rfl, rfl⟩⟩

/-! ### What a phase does -/

/-- A turn of the sequencer waits, or stores a whole buffer in `DST` and then completes or goes on to a layer. -/
theorem advance_cases {s t : State} (h : advance s = .next t) :
    (s.seq.phase = .idle ∧ t = s) ∨
      (s.seq.phase ≠ .idle ∧ (∃ buf, buf.length = s.cfg.N ∧ t.dst = Mem.store s.dst buf) ∧
        (Completed t ∨ (t.status = s.status ∧ t.seq.phase = .layer))) := by
  obtain hidle | ⟨hp, buf, -, h⟩ | ⟨hp, -, buf, hbuf, h⟩ := advance_eq_next_iff.1 h
  · exact .inl hidle
  · have hlen : (reorder s.cfg buf).length = s.cfg.N := reorder_length ..
    obtain ⟨-, w, -, rfl⟩ | ⟨-, rfl⟩ := afterReorder_eq_next_iff.1 h
    · exact .inr ⟨by simp [hp], ⟨_, hlen, rfl⟩, .inr ⟨rfl, rfl⟩⟩
    · exact .inr ⟨by simp [hp], ⟨_, hlen, rfl⟩, .inl ⟨rfl, rfl⟩⟩
  · have hlen : buf.length = s.cfg.N := ((Mem.buffer?_eq_some_iff _ _ _).1 hbuf).1
    obtain ⟨-, -, w, -, rfl⟩ | ⟨-, rfl⟩ := afterLayer_eq_next_iff.1 h
    · exact .inr ⟨by simp [hp], ⟨_, (layer_length ..).trans hlen, rfl⟩, .inr ⟨rfl, rfl⟩⟩
    · exact .inr ⟨by simp [hp], ⟨_, (layer_length ..).trans hlen, rfl⟩, .inl ⟨rfl, rfl⟩⟩

/-- No phase touches `DST` beyond its size (10_state.md R34). -/
theorem get?_dst_of_advance {s t : State} (h : advance s = .next t) {k : Nat} (hk : s.cfg.N ≤ k) :
    Mem.get? t.dst k = Mem.get? s.dst k := by
  obtain ⟨-, rfl⟩ | ⟨-, ⟨buf, hlen, hdst⟩, -⟩ := advance_cases h
  · rfl
  · rw [hdst, Mem.get?_store, if_neg (by omega)]

theorem get?_dst_of_runPhases {n : Nat} {s t : State} (h : runPhases n s = .next t) {k : Nat} (hk : s.cfg.N ≤ k) :
    Mem.get? t.dst k = Mem.get? s.dst k := by
  induction n generalizing s with
  | zero => cases h; rfl
  | succ n ih =>
    obtain ⟨u, hu, hrest⟩ := andThen_eq_next_iff.1 h
    have hcfg : u.cfg = s.cfg := (commandFrame_of_advance hu).cfg
    rw [ih hrest (hcfg ▸ hk), get?_dst_of_advance hu hk]

theorem commandFrame_of_runPhases {n : Nat} {s t : State} (h : runPhases n s = .next t) : CommandFrame s t :=
  let ⟨hcfg, h0, h1, h2, hsrc, hgrain, hpending, hrdata, hresult⟩ := runPhases_keeps h
  ⟨hcfg, h0, h1, h2, hsrc, hgrain, hpending, hrdata, hresult⟩

/-! ### What a command leaves unchanged -/

theorem exec_frame {i : Instr} {s t : State} (h : exec i s = .next t) : CommandFrame s t := by
  rw [exec_eq_accept_runPhases] at h
  obtain ⟨a, ha, hrun⟩ := andThen_eq_next_iff.1 h
  obtain ⟨hframe, -⟩ := accept_frame ha
  exact hframe.trans (commandFrame_of_runPhases hrun)

theorem get?_dst_of_exec {i : Instr} {s t : State} (h : exec i s = .next t) {k : Nat} (hk : s.cfg.N ≤ k) :
    Mem.get? t.dst k = Mem.get? s.dst k := by
  rw [exec_eq_accept_runPhases] at h
  obtain ⟨a, ha, hrun⟩ := andThen_eq_next_iff.1 h
  obtain ⟨hframe, hdst⟩ := accept_frame ha
  rw [get?_dst_of_runPhases hrun (hframe.cfg ▸ hk), hdst]

theorem exec_warmup_next {s t : State} (h : exec .warmup s = .next t) : t.dst = s.dst ∧ t.seq = s.seq := by
  obtain ⟨-, rfl⟩ := execWarmup_eq_next_iff.1 h
  exact ⟨rfl, rfl⟩

/-- Settles O32: acceptance and the phases each leave the frame, and `WARMUP` is acceptance alone. -/
theorem commandsLeaveTheRestUnchanged : Obligations.CommandsLeaveTheRestUnchanged := by
  refine fun i s t h => ⟨exec_frame h, fun k hk => get?_dst_of_exec h hk, ?_⟩
  rintro rfl
  exact exec_warmup_next h

/-- Only the addresses of the `DST` window reach an entry of `DST` (20_memory.md R54). -/
theorem targetAt_eq_dst {c : Config} {a i : Nat} (h : targetAt c a = some (.dst i)) :
    c.dstBase ≤ a ∧ a < c.dstBase + 4 * c.N := by
  unfold targetAt at h
  split at h
  next =>
    unfold regAt at h
    repeat' split at h
    all_goals cases h
  next =>
    split at h
    next => cases h
    next =>
      split at h
      next hwindow => exact hwindow
      next => cases h

/-- A byte is the same when `SRC` is, and the entry of `DST` that its address reaches, if it reaches one. -/
theorem byteAt_congr {s t : State} {a : Nat} (hcfg : t.cfg = s.cfg) (hsrc : t.src = s.src)
    (hdst : ∀ i, targetAt s.cfg a = some (.dst i) → Mem.get? t.dst i = Mem.get? s.dst i) :
    t.byteAt a = s.byteAt a := by
  unfold State.byteAt
  rw [hcfg, hsrc]
  split
  next => rfl
  next i ht => rw [hdst i ht]
  next => rfl

/-- Settles O33: `SRC` is in the frame, an address that reaches `DST` is in its window, and `WARMUP` leaves `DST`. -/
theorem commandsTouchOnlyBytesOfDst : Obligations.CommandsTouchOnlyBytesOfDst := by
  intro i s t a h hout
  have hframe := exec_frame h
  refine byteAt_congr hframe.cfg hframe.src fun k hk => ?_
  obtain hout | rfl := hout
  · exact absurd (targetAt_eq_dst hk) hout
  · obtain ⟨hdst, -⟩ := exec_warmup_next h
    rw [hdst]

/-! ### How many phases are left -/

/-- The phases that a running command still has before it completes (70_reset_and_hazards.md R213). -/
def phasesLeft (s : State) : Nat :=
  match s.seq.phase with
  | .idle => 0
  | .reorder => if s.seq.chain then s.cfg.K + 1 else 1
  | .layer => if s.seq.chain then s.cfg.K - s.seq.i else 1

theorem phasesLeft_le (s : State) : phasesLeft s ≤ s.cfg.K + 1 := by
  unfold phasesLeft
  repeat' split
  all_goals omega

theorem phasesLeft_of_reorder {s : State} (h : s.seq.phase = .reorder) :
    phasesLeft s = if s.seq.chain then s.cfg.K + 1 else 1 := by
  simp [phasesLeft, h]

theorem phasesLeft_of_layer {s : State} (h : s.seq.phase = .layer) :
    phasesLeft s = if s.seq.chain then s.cfg.K - s.seq.i else 1 := by
  simp [phasesLeft, h]

theorem phasesLeft_accept {i : Instr} (s : State) (hi : i ≠ .warmup) :
    phasesLeft (s.accept (acceptedSeq s i)) = phasesOf s.cfg i := by
  cases i with
  | warmup => exact absurd rfl hi
  | _ => rfl

/-- The layer in progress is the last one exactly when its groups no longer fit into a wider layer (R163). -/
theorem phasesLeft_last_layer {s : State} (h : seqOk s) (hp : s.seq.phase = .layer)
    (hlast : ¬(s.seq.chain = true ∧ 4 * s.seq.m < s.cfg.N)) : phasesLeft s = 1 := by
  simp only [seqOk, hp] at h
  obtain ⟨-, hchain, -⟩ := h
  rw [phasesLeft_of_layer hp]
  cases hc : s.seq.chain with
  | false => rfl
  | true =>
    obtain ⟨-, hi, hm, -⟩ := hchain hc
    have hK : ¬ s.seq.i + 1 < s.cfg.K := fun hlt =>
      hlast ⟨hc, by rw [hm, ← pow_succ']; exact four_pow_lt_N_iff.2 hlt⟩
    simp only [if_true]
    omega

/-- A phase leaves one phase fewer, and only completion ends a command. -/
theorem phasesLeft_of_advance {s t : State} (h : seqOk s) (hp : s.seq.phase ≠ .idle) (ht : advance s = .next t) :
    phasesLeft s = phasesLeft t + 1 ∧ (Completed t ∨ t.seq.phase ≠ .idle) := by
  obtain ⟨hidle, -⟩ | ⟨hr, buf, -, ht⟩ | ⟨hl, -, buf, -, ht⟩ := advance_eq_next_iff.1 ht
  · exact absurd hidle hp
  · rw [phasesLeft_of_reorder hr]
    obtain ⟨hc, w, -, rfl⟩ | ⟨hc, rfl⟩ := afterReorder_eq_next_iff.1 ht
    · exact ⟨if_pos hc, .inr nofun⟩
    · exact ⟨if_neg (by simpa using hc), .inl ⟨rfl, rfl⟩⟩
  · obtain ⟨hc, -, w, -, rfl⟩ | ⟨hlast, rfl⟩ := afterLayer_eq_next_iff.1 ht
    · have hi : s.seq.i < s.cfg.K := by
        simp only [seqOk, hl] at h
        obtain ⟨-, hchain, -⟩ := h
        obtain ⟨-, hi, -⟩ := hchain hc
        exact hi
      refine ⟨?_, .inr nofun⟩
      rw [phasesLeft_of_layer hl, if_pos (show s.seq.chain = true from hc)]
      show s.cfg.K - s.seq.i = s.cfg.K - (s.seq.i + 1) + 1
      omega
    · exact ⟨phasesLeft_last_layer h hl hlast, .inl ⟨rfl, rfl⟩⟩

/-- The phases that are left complete the command. -/
theorem runPhases_phasesLeft {s : State} (h : seqOk s) (hp : s.seq.phase ≠ .idle) :
    ∃ t, runPhases (phasesLeft s) s = .next t ∧ Completed t := by
  induction hn : phasesLeft s generalizing s with
  | zero =>
    obtain ⟨t, ht, -⟩ := advance_of_seqOk h
    obtain ⟨hleft, -⟩ := phasesLeft_of_advance h hp ht
    omega
  | succ n ih =>
    obtain ⟨u, hu, hready⟩ := advance_of_seqOk h
    obtain ⟨hleft, hdone | hrunning⟩ := phasesLeft_of_advance h hp hu
    · refine ⟨u, ?_, hdone⟩
      rw [runPhases_succ, hu, andThen_next, runPhases_of_idle hdone.1]
    · obtain ⟨t, ht, hend⟩ := ih hready hrunning (by omega)
      exact ⟨t, by rw [runPhases_succ, hu, andThen_next, ht], hend⟩

/-- An accepted command that has phases completes after them. -/
theorem runPhases_of_accept_completed {i : Instr} {s a : State} (hi : i ≠ .warmup) (h : accept i s = .next a) :
    ∃ t, runPhases (phasesOf s.cfg i) a = .next t ∧ Completed t := by
  have hready := seqOk_of_accept hi h
  obtain ⟨-, rfl⟩ := accept_next hi h
  rw [← phasesLeft_accept s hi]
  exact runPhases_phasesLeft hready (phase_acceptedSeq_ne_idle s hi)

/-- Settles O34: the one-step command is its acceptance followed by the phases that are then left. -/
theorem phasesRefineTheAtomicCommand : Obligations.PhasesRefineTheAtomicCommand := by
  refine fun i s => ⟨fun a ha => ?_, fun r => exec_refused_iff_accept.symm⟩
  rw [exec_eq_accept_runPhases, ha, andThen_next]
  by_cases hi : i = .warmup
  · subst hi
    obtain ⟨-, rfl⟩ := accept_warmup_next ha
    exact ⟨_, rfl, rfl, rfl, .inl rfl⟩
  · obtain ⟨t, ht, hphase, hstatus⟩ := runPhases_of_accept_completed hi ha
    exact ⟨t, ht, ht, hstatus, .inr hphase⟩

/-- Settles O40: a running command's phases are left, at most `K + 1` of them, and none of them is refused. -/
theorem runningPhaseAlwaysCompletes : Obligations.RunningPhaseAlwaysCompletes := by
  intro s hinv
  obtain ⟨t, ht, -⟩ := advance_of_seqOk hinv.seq_ok
  refine ⟨⟨t, ht⟩, fun hbusy => ?_⟩
  obtain ⟨u, hu, hdone⟩ := runPhases_phasesLeft hinv.seq_ok (hinv.busy_iff.1 hbusy)
  exact ⟨phasesLeft s, u, phasesLeft_le s, hu, hdone, commandFrame_of_runPhases hu⟩

end Sys2Proof.Machine

/-!
What one step can do, said once, and what every step keeps: the build (spec/10_state.md R42), `SRC` and the operand
registers but for the host's own writes (R21, R35), and the invariant of the machine (R25, R30, R34).
-/

namespace Sys2Proof.Machine

/-! ### What a step can do -/

/-- Two states of the same block: they differ in nothing but the model's record of the host (log 2, log 3, log 6). -/
structure SameBlock (s t : State) : Prop where
  cfg : t.cfg = s.cfg
  status : t.status = s.status
  arg0 : t.arg0 = s.arg0
  arg1 : t.arg1 = s.arg1
  arg2 : t.arg2 = s.arg2
  seq : t.seq = s.seq
  src : t.src = s.src
  dst : t.dst = s.dst

theorem sameBlock_withPending (s : State) (ops : List HostOp) : SameBlock s (s.withPending ops) := by
  constructor <;> rfl

theorem sameBlock_give (s : State) (w : Word) : SameBlock s (s.give w) := by
  constructor <;> rfl

theorem SameBlock.refl (s : State) : SameBlock s s := by
  constructor <;> rfl

theorem SameBlock.trans {s t u : State} (h : SameBlock s t) (h' : SameBlock t u) : SameBlock s u :=
  ⟨h'.cfg.trans h.cfg, h'.status.trans h.status, h'.arg0.trans h.arg0, h'.arg1.trans h.arg1, h'.arg2.trans h.arg2,
    h'.seq.trans h.seq, h'.src.trans h.src, h'.dst.trans h.dst⟩

/-- A turn of the sequencer, before and after which only the record of the host may have changed. -/
def PhaseTurn (s t : State) : Prop := ∃ v u, SameBlock s v ∧ advance v = .next u ∧ SameBlock u t

/-- One turn of `WAIT` that answers changes the block by a phase at most. -/
theorem waitTurn_next {s t : State} (h : waitTurn s = .next t) : SameBlock s t ∨ PhaseTurn s t := by
  rw [waitTurn_eq] at h
  split at h
  next =>
    obtain ⟨u, hu, ht⟩ := andThen_eq_next_iff.1 h
    cases ht
    exact .inr ⟨_, u, sameBlock_give s _, hu, sameBlock_withPending u _⟩
  next =>
    cases h
    exact .inl (sameBlock_give s _)

theorem busGet_next {a : Nat} {s t : State} (h : busGet a s = .next t) : SameBlock s t := by
  obtain ⟨w, -, rfl⟩ := busGet_eq_next_iff.1 h
  constructor <;> rfl

/-- What a step that answers has done: a host write at its target, a reset, nothing to the block, or one phase. -/
theorem step_next_cases {s t : State} (h : step s = .next t) :
    (∃ a size w rest tgt, s.pending = .write a size w :: rest ∧ targetAt s.cfg a = some tgt ∧
        writeTarget tgt w (s.withPending rest) = .next t) ∨
      (∃ rest, s.pending = .reset :: rest ∧ t = (s.withPending rest).doReset) ∨
        SameBlock s t ∨ PhaseTurn s t := by
  cases hp : s.pending with
  | nil =>
    rw [step_of_no_action hp] at h
    exact .inr (.inr (.inr ⟨s, t, .refl s, h, .refl t⟩))
  | cons op rest =>
    rw [step_of_action hp] at h
    have hblock : SameBlock s (s.withPending rest) := sameBlock_withPending s rest
    cases op with
    | write a size w =>
      obtain ⟨-, tgt, ht, hw⟩ := busWrite_next h
      exact .inl ⟨a, size, w, rest, tgt, rfl, ht, hw⟩
    | read a size =>
      obtain ⟨-, w, rfl⟩ := busRead_next h
      exact .inr (.inr (.inl (hblock.trans (sameBlock_give _ w))))
    | get a => exact .inr (.inr (.inl (hblock.trans (busGet_next h))))
    | wait =>
      obtain hsame | ⟨v, u, hv, hu, ht⟩ := waitTurn_next h
      · exact .inr (.inr (.inl (hblock.trans hsame)))
      · exact .inr (.inr (.inr ⟨v, u, hblock.trans hv, hu, ht⟩))
    | reset =>
      cases h
      exact .inr (.inl ⟨rest, rfl, rfl⟩)
    | tick => exact .inr (.inr (.inr ⟨_, t, hblock, h, .refl t⟩))

/-! ### What every step keeps of the build, `SRC` and the operand registers -/

theorem PhaseTurn.keeps {s t : State} (h : PhaseTurn s t) :
    t.cfg = s.cfg ∧ t.src = s.src ∧ t.arg0 = s.arg0 ∧ t.arg1 = s.arg1 ∧ t.arg2 = s.arg2 := by
  obtain ⟨v, u, hv, hu, ht⟩ := h
  have hframe := commandFrame_of_advance hu
  exact ⟨ht.cfg.trans (hframe.cfg.trans hv.cfg), ht.src.trans (hframe.src.trans hv.src),
    ht.arg0.trans (hframe.arg0.trans hv.arg0), ht.arg1.trans (hframe.arg1.trans hv.arg1),
    ht.arg2.trans (hframe.arg2.trans hv.arg2)⟩

/-- In either grain a command leaves its frame. -/
theorem issue_frame {i : Instr} {s t : State} (h : issue i s = .next t) : CommandFrame s t := by
  unfold issue at h
  split at h
  next => exact exec_frame h
  next =>
    obtain ⟨hframe, -⟩ := accept_frame h
    exact hframe

theorem cfg_of_writeTarget {tgt : Target} {w : Word} {s t : State} (h : writeTarget tgt w s = .next t) :
    t.cfg = s.cfg := by
  obtain ⟨-, i, -, hi⟩ | ⟨-, hstored⟩ := writeTarget_next h
  · exact (issue_frame hi).cfg
  · obtain ⟨-, rfl⟩ | ⟨-, rfl⟩ | ⟨-, rfl⟩ | ⟨-, rfl⟩ | ⟨-, rfl⟩ | ⟨k, -, rfl⟩ | ⟨k, -, rfl⟩ := hstored <;> rfl

theorem cfg_of_step {s t : State} (h : step s = .next t) : t.cfg = s.cfg := by
  obtain ⟨a, size, w, rest, tgt, -, -, hw⟩ | ⟨rest, -, rfl⟩ | hsame | hturn := step_next_cases h
  · have hcfg : t.cfg = (s.withPending rest).cfg := cfg_of_writeTarget hw
    exact hcfg
  · rfl
  · exact hsame.cfg
  · obtain ⟨hcfg, -⟩ := hturn.keeps
    exact hcfg

/-- Settles O38: no case of a step writes the build, from which `CFG` is computed. -/
theorem buildNeverChanges : Obligations.BuildNeverChanges := by
  intro s t h
  have hcfg := cfg_of_step h
  exact ⟨hcfg, congrArg cfgWord hcfg⟩

/-- Settles O39: the cases of a step that are neither a write nor a reset are a phase at most. -/
theorem onlyTheHostWritesSrcAndOperands : Obligations.OnlyTheHostWritesSrcAndOperands := by
  intro s t h hwrite hreset
  obtain ⟨a, size, w, rest, tgt, hp, -⟩ | ⟨rest, hp, -⟩ | hsame | hturn := step_next_cases h
  · exact absurd hp (hwrite a size w rest)
  · exact absurd hp (hreset rest)
  · exact ⟨hsame.src, hsame.arg0, hsame.arg1, hsame.arg2⟩
  · obtain ⟨-, hkept⟩ := hturn.keeps
    exact hkept

/-! ### The invariant -/

/-- The invariant speaks of the build, the flags, `SEQ` and the memories alone. -/
theorem MachineInv.congr {s t : State} (h : MachineInv s) (hcfg : t.cfg = s.cfg) (hstatus : t.status = s.status)
    (hseq : t.seq = s.seq) (hsrc : t.src = s.src) (hdst : t.dst = s.dst) : MachineInv t := by
  obtain ⟨hbusy, hboth, hsrcwf, hdstwf, hsrcb, hdstb, hready⟩ := h
  constructor <;> simp only [seqOk, hcfg, hstatus, hseq, hsrc, hdst] <;> assumption

theorem MachineInv.of_sameBlock {s t : State} (h : MachineInv s) (hb : SameBlock s t) : MachineInv t :=
  h.congr hb.cfg hb.status hb.seq hb.src hb.dst

/-- A block that is not busy is idle. -/
theorem MachineInv.idle {s : State} (h : MachineInv s) (hbusy : s.status.busy = false) : s.seq.phase = .idle :=
  Decidable.not_not.1 fun hp => by simp [h.busy_iff.2 hp] at hbusy

theorem machineInv_resetOf (c : Config) : MachineInv (State.resetOf c) :=
  ⟨by simp, by simp, rfl, rfl, rfl, rfl, trivial⟩

/-- Settles O36: nothing runs and nothing is written. -/
theorem resetMeetsTheInvariant : Obligations.ResetMeetsTheInvariant :=
  ⟨machineInv_resetOf, machineInv_resetOf Config.scenario⟩

/-- A phase completes its command or leaves the block busy in a layer, and stores a buffer of the size of `DST`. -/
theorem MachineInv.advance {s t : State} (h : MachineInv s) (ht : advance s = .next t) : MachineInv t := by
  have hframe := commandFrame_of_advance ht
  have hready : seqOk t := by
    obtain ⟨u, hu, hready⟩ := advance_of_seqOk h.seq_ok
    cases hu.symm.trans ht
    exact hready
  obtain ⟨-, rfl⟩ | ⟨hp, ⟨buf, hlen, hdst⟩, hflags⟩ := advance_cases ht
  · exact h
  · have hsrcwf : Mem.wf t.src = true := hframe.src ▸ h.src_wf
    have hdstwf : Mem.wf t.dst = true := hdst ▸ Mem.store_wf buf h.dst_wf
    have hsrcb : Mem.below t.cfg.N t.src = true := hframe.cfg ▸ hframe.src ▸ h.src_below
    have hdstb : Mem.below t.cfg.N t.dst = true := hframe.cfg ▸ hdst ▸ Mem.store_below hlen.le h.dst_below
    obtain ⟨hidle, hstatus⟩ | ⟨hstatus, hlayer⟩ := hflags
    · exact ⟨by simp [hidle, hstatus], by simp [hstatus], hsrcwf, hdstwf, hsrcb, hdstb, hready⟩
    · have hbusy : s.status.busy = true := h.busy_iff.2 hp
      exact ⟨by simp [hlayer, hstatus, hbusy], hstatus ▸ h.not_both, hsrcwf, hdstwf, hsrcb, hdstb, hready⟩

theorem MachineInv.runPhases {n : Nat} {s t : State} (h : MachineInv s) (ht : runPhases n s = .next t) :
    MachineInv t := by
  induction n generalizing s with
  | zero => cases ht; exact h
  | succ n ih =>
    obtain ⟨u, hu, hrest⟩ := andThen_eq_next_iff.1 ht
    exact ih (h.advance hu) hrest

/-- Acceptance makes the block busy exactly where it starts a phase. -/
theorem MachineInv.accept {i : Instr} {s a : State} (h : MachineInv s) (ha : accept i s = .next a) : MachineInv a := by
  by_cases hi : i = .warmup
  · subst hi
    obtain ⟨hbusy, rfl⟩ := accept_warmup_next ha
    have hidle := h.idle hbusy
    exact ⟨by simp [hidle], by simp, h.src_wf, h.dst_wf, h.src_below, h.dst_below, h.seq_ok⟩
  · have hready := seqOk_of_accept hi ha
    obtain ⟨-, rfl⟩ := accept_next hi ha
    have hp := phase_acceptedSeq_ne_idle s hi
    exact ⟨by simp [hp], by simp, h.src_wf, h.dst_wf, h.src_below, h.dst_below, hready⟩

theorem MachineInv.exec {i : Instr} {s t : State} (h : MachineInv s) (ht : exec i s = .next t) : MachineInv t := by
  rw [exec_eq_accept_runPhases] at ht
  obtain ⟨a, ha, hrun⟩ := andThen_eq_next_iff.1 ht
  exact (h.accept ha).runPhases hrun

theorem MachineInv.issue {i : Instr} {s t : State} (h : MachineInv s) (ht : issue i s = .next t) : MachineInv t := by
  unfold Machine.issue at ht
  split at ht
  next => exact h.exec ht
  next => exact h.accept ht

/-- A host write that stores a sample stays inside its memory, and an idle block alone takes it. -/
theorem MachineInv.writeTarget {a : Nat} {tgt : Target} {w : Word} {s t : State} (h : MachineInv s)
    (htgt : targetAt s.cfg a = some tgt) (ht : writeTarget tgt w s = .next t) : MachineInv t := by
  obtain ⟨hsrcN, hdstN⟩ := targetAt_in_bounds (c := s.cfg) (a := a)
  obtain ⟨-, i, -, hi⟩ | ⟨hbusy, hstored⟩ := writeTarget_next ht
  · exact h.issue hi
  · have hidle := h.idle hbusy
    obtain ⟨-, rfl⟩ | ⟨-, rfl⟩ | ⟨-, rfl⟩ | ⟨-, rfl⟩ | ⟨-, rfl⟩ | ⟨k, rfl, rfl⟩ | ⟨k, rfl, rfl⟩ := hstored
    · exact h
    · exact h
    · exact h.congr rfl rfl rfl rfl rfl
    · exact h.congr rfl rfl rfl rfl rfl
    · exact h.congr rfl rfl rfl rfl rfl
    · exact ⟨h.busy_iff, h.not_both, Mem.set_wf k _ h.src_wf, h.dst_wf, Mem.set_below _ (hsrcN k htgt) h.src_below,
        h.dst_below, by simp [seqOk, hidle]⟩
    · exact ⟨h.busy_iff, h.not_both, h.src_wf, Mem.set_wf k _ h.dst_wf, h.src_below,
        Mem.set_below _ (hdstN k htgt) h.dst_below, by simp [seqOk, hidle]⟩

/-- Settles O37: each case of a step keeps the invariant. -/
theorem everyStepKeepsTheInvariant : Obligations.EveryStepKeepsTheInvariant := by
  intro s t h ht
  obtain ⟨a, size, w, rest, tgt, -, htgt, hw⟩ | ⟨rest, -, rfl⟩ | hsame | ⟨v, u, hv, hu, hut⟩ := step_next_cases ht
  · exact (h.of_sameBlock (sameBlock_withPending s rest)).writeTarget htgt hw
  · exact (machineInv_resetOf s.cfg).congr rfl rfl rfl rfl rfl
  · exact h.of_sameBlock hsame
  · exact ((h.of_sameBlock hv).advance hu).of_sameBlock hut

end Sys2Proof.Machine

/-!
The host's accesses one by one (spec/20_memory.md R54, R55, R59, R62): what an access does at the target it reaches,
when a read answers and with which word, and the registers (spec/10_state.md section 5).
-/

namespace Sys2Proof.Machine

/-! ### Access and target -/

/-- An access of `size` bytes at `a` that does `f` at its target (R55). -/
def busAccess (a size : Nat) (s : State) (f : Target → Host.Outcome State Fault Refusal) :
    Host.Outcome State Fault Refusal :=
  if accessOk a size then
    match targetAt s.cfg a with
    | some t => f t
    | none => .refused .badAddress
  else .refused .badAccess

theorem busRead_eq (a size : Nat) (s : State) : busRead a size s = busAccess a size s fun t => readTarget t s := rfl

theorem busWrite_eq (a size : Nat) (w : Word) (s : State) :
    busWrite a size w s = busAccess a size s fun t => writeTarget t w s := rfl

section Access

variable {a size : Nat} {s : State} {f : Target → Host.Outcome State Fault Refusal}

theorem busAccess_of_target {t : Target} (ha : accessOk a size = true) (ht : targetAt s.cfg a = some t) :
    busAccess a size s f = f t := by
  simp [busAccess, ha, ht]

theorem busAccess_of_no_target (ha : accessOk a size = true) (ht : targetAt s.cfg a = none) :
    busAccess a size s f = .refused .badAddress := by
  simp [busAccess, ha, ht]

theorem busAccess_of_not_ok (ha : accessOk a size = false) : busAccess a size s f = .refused .badAccess := by
  simp [busAccess, ha]

theorem busAccess_eq_next_iff {u : State} :
    busAccess a size s f = .next u ↔ accessOk a size = true ∧ ∃ t, targetAt s.cfg a = some t ∧ f t = .next u := by
  cases ha : accessOk a size with
  | false => simp [busAccess_of_not_ok ha]
  | true =>
    cases ht : targetAt s.cfg a with
    | none => simp [busAccess_of_no_target ha ht]
    | some t => simp [busAccess_of_target ha ht]

end Access

/-! ### Reads -/

/-- What a target holds for a host read (R24 to R28, R54), `none` for an unwritten entry (10_state.md R41). -/
def targetWord (s : State) : Target → Option Word
  | .cmd => some 0
  | .status => some (statusWord s.status)
  | .arg0 => some s.arg0
  | .arg1 => some s.arg1
  | .arg2 => some s.arg2
  | .cfg => some (cfgWord s.cfg)
  | .src i => (Mem.get? s.src i).map pack
  | .dst i => (Mem.get? s.dst i).map pack

/-- The host may read the target: while the block is busy only `STATUS` and `CFG` (R62). -/
def MayRead (t : Target) (s : State) : Prop := s.status.busy = true → t = .status ∨ t = .cfg

theorem mayRead_of_not_busy {s : State} (h : s.status.busy = false) (t : Target) : MayRead t s :=
  fun hbusy => by simp [h] at hbusy

/-- Of every other target the host may read what it holds only while the block is not busy. -/
theorem MayRead.not_busy {t : Target} {s : State} (h : MayRead t s) (hs : t ≠ .status) (hc : t ≠ .cfg) :
    ¬ s.status.busy = true :=
  fun hbusy => (h hbusy).elim hs hc

theorem readSample_of_written {m : Mem} {i : Nat} {x : Sample} (s : State) (h : Mem.get? m i = some x) :
    readSample m i s = .next (s.give (pack x)) := by
  simp [readSample, h]

theorem readSample_of_unwritten {m : Mem} {i : Nat} (s : State) (h : Mem.get? m i = none) :
    readSample m i s = .refused .unwrittenSample := by
  simp [readSample, h]

theorem readTarget_of_busy {t : Target} {s : State} (h : ¬ MayRead t s) : readTarget t s = .refused .busyAccess := by
  obtain ⟨hbusy, hclosed⟩ := Classical.not_imp.1 h
  cases t with
  | status => exact absurd (.inl rfl) hclosed
  | cfg => exact absurd (.inr rfl) hclosed
  | _ => exact if_pos hbusy

theorem readTarget_of_word {t : Target} {s : State} {w : Word} (h : MayRead t s) (hw : targetWord s t = some w) :
    readTarget t s = .next (s.give w) := by
  cases t with
  | status => cases hw; rfl
  | cfg => cases hw; rfl
  | src i =>
    obtain ⟨x, hx, rfl⟩ := Option.map_eq_some_iff.1 hw
    exact (if_neg (h.not_busy nofun nofun)).trans (readSample_of_written s hx)
  | dst i =>
    obtain ⟨x, hx, rfl⟩ := Option.map_eq_some_iff.1 hw
    exact (if_neg (h.not_busy nofun nofun)).trans (readSample_of_written s hx)
  | _ => cases hw; exact if_neg (h.not_busy nofun nofun)

theorem readTarget_of_no_word {t : Target} {s : State} (h : MayRead t s) (hw : targetWord s t = none) :
    readTarget t s = .refused .unwrittenSample := by
  cases t with
  | src i => exact (if_neg (h.not_busy nofun nofun)).trans (readSample_of_unwritten s (Option.map_eq_none_iff.1 hw))
  | dst i => exact (if_neg (h.not_busy nofun nofun)).trans (readSample_of_unwritten s (Option.map_eq_none_iff.1 hw))
  | _ => cases hw

/-- A host read answers exactly where the host may read and there is a word. -/
theorem readTarget_eq_next_iff {t : Target} {s u : State} :
    readTarget t s = .next u ↔ MayRead t s ∧ ∃ w, targetWord s t = some w ∧ u = s.give w := by
  by_cases h : MayRead t s
  · cases hw : targetWord s t with
    | none => simp [readTarget_of_no_word h hw]
    | some w => simp [readTarget_of_word h hw, h, eq_comm]
  · simp [readTarget_of_busy h, h]

theorem SameBlock.targetWord_eq {s t : State} (h : SameBlock s t) : targetWord t = targetWord s := by
  funext tgt
  cases tgt <;> simp only [targetWord, h.status, h.arg0, h.arg1, h.arg2, h.cfg, h.src, h.dst]

/-- A read sees nothing of the host's record. -/
theorem SameBlock.busRead {s t : State} {a size : Nat} {w : Word} (h : SameBlock s t)
    (hr : busRead a size s = .next (s.give w)) : busRead a size t = .next (t.give w) := by
  rw [busRead_eq, busAccess_eq_next_iff] at hr ⊢
  simp only [readTarget_eq_next_iff, MayRead, h.cfg, h.status, h.targetWord_eq] at hr ⊢
  obtain ⟨ha, tgt, ht, hmay, w', hw', hgive⟩ := hr
  obtain rfl : w = w' := (List.cons.inj (congrArg State.rdata hgive)).1
  exact ⟨ha, tgt, ht, hmay, w, hw', rfl⟩

/-- Settles O45: a read only gives a word, and which one does not depend on what has been given. -/
theorem readsHaveNoSideEffect : Obligations.ReadsHaveNoSideEffect := by
  intro s t a size rest hp h
  rw [step_of_action hp] at h
  obtain ⟨-, w, rfl⟩ := busRead_next h
  refine ⟨w, rfl, ?_⟩
  have hsame : SameBlock (s.withPending (.read a size :: rest))
      (((s.withPending (.read a size :: rest)).give w).withPending rest) :=
    (sameBlock_give _ w).trans (sameBlock_withPending _ rest)
  rw [step_of_action rfl]
  exact hsame.busRead h

/-! ### The registers -/

section Registers

variable {s : State} {rest : List HostOp} {o : Nat} {t : Target} {w : Word}

theorem step_read_reg (hp : s.pending = rd4 (s.cfg.regBase + o) :: rest) (hbase : s.cfg.regBase % 4 = 0)
    (ho : o % 4 = 0) (ht : regAt o = some t) (hin : o < 0x18) : step s = readTarget t (s.withPending rest) :=
  step_read_of_target hp (by omega) ((targetAt_reg s.cfg hin).trans ht)

/-- A read of a register that the host may read gives it the register's word and changes nothing else. -/
theorem step_read_reg_of_mayRead (hp : s.pending = rd4 (s.cfg.regBase + o) :: rest) (hbase : s.cfg.regBase % 4 = 0)
    (ho : o % 4 = 0) (ht : regAt o = some t) (hmay : MayRead t s) (hw : targetWord s t = some w)
    (hin : o < 0x18 := by decide) : step s = .next { s with pending := rest, rdata := w :: s.rdata } := by
  have hword : targetWord (s.withPending rest) t = some w := (sameBlock_withPending s rest).targetWord_eq ▸ hw
  exact (step_read_reg hp hbase ho ht hin).trans (readTarget_of_word hmay hword)

end Registers

/-- Settles O44: each offset is that register's, and the host may read it. -/
theorem registerReadsReturnTheirValues : Obligations.RegisterReadsReturnTheirValues := by
  refine fun s rest hbase => ⟨fun hp => ?_, fun hp => ?_, fun hbusy => ?_⟩
  · exact step_read_reg_of_mayRead hp hbase rfl rfl (fun _ => .inl rfl) rfl
  · exact step_read_reg_of_mayRead hp hbase rfl rfl (fun _ => .inr rfl) rfl
  · have hmay := mayRead_of_not_busy hbusy
    exact ⟨fun hp => step_read_reg_of_mayRead hp hbase rfl rfl (hmay .cmd) rfl,
      fun hp => step_read_reg_of_mayRead hp hbase rfl rfl (hmay .arg0) rfl,
      fun hp => step_read_reg_of_mayRead hp hbase rfl rfl (hmay .arg1) rfl,
      fun hp => step_read_reg_of_mayRead hp hbase rfl rfl (hmay .arg2) rfl⟩

/-- Settles O46: the write stores the word in its register, where the read finds it. -/
theorem operandRegistersKeepAnyWord : Obligations.OperandRegistersKeepAnyWord := by
  intro s rest w hbase hbusy
  have hmay := mayRead_of_not_busy hbusy
  refine ⟨step_write_arg0 hbase hbusy, step_write_arg1 hbase hbusy, step_write_arg2 hbase hbusy,
    fun hp => runSteps_two (step_write_arg0 hbase hbusy hp) ?_,
    fun hp => runSteps_two (step_write_arg1 hbase hbusy hp) ?_,
    fun hp => runSteps_two (step_write_arg2 hbase hbusy hp) ?_⟩
  · exact step_read_reg_of_mayRead rfl hbase rfl rfl (hmay .arg0) rfl
  · exact step_read_reg_of_mayRead rfl hbase rfl rfl (hmay .arg1) rfl
  · exact step_read_reg_of_mayRead rfl hbase rfl rfl (hmay .arg2) rfl

/-- Settles O48: both offsets are those of a register that ignores a write. -/
theorem readOnlyRegistersIgnoreWrites : Obligations.ReadOnlyRegistersIgnoreWrites := by
  rintro s rest w hbase hbusy (hp | hp)
  · exact (step_write_reg hp hbase rfl (by decide) rfl).trans (if_neg (by simp [hbusy]))
  · exact (step_write_reg hp hbase rfl (by decide) rfl).trans (if_neg (by simp [hbusy]))

end Sys2Proof.Machine

/-!
Which accesses the block refuses (spec/60_exceptions.md R183, R184; spec/20_memory.md R55, R62), the step that issues a
command (spec/30_encoding.md R84, R85), and the host's other actions (R88).
-/

namespace Sys2Proof.Machine

/-! ### Writes -/

/-- A busy block refuses every command (R84). -/
theorem accept_of_busy {s : State} (h : s.status.busy = true) (i : Instr) : accept i s = .refused .busyWrite := by
  cases i <;> exact if_pos h

theorem issue_of_busy {s : State} (h : s.status.busy = true) (i : Instr) : issue i s = .refused .busyWrite := by
  unfold issue
  split
  next => exact exec_refused_iff_accept.2 (accept_of_busy h i)
  next => exact accept_of_busy h i

theorem writeCmd_of_decode {w : Word} {i : Instr} (h : decode w = .ok i) (s : State) : writeCmd w s = issue i s := by
  simp [writeCmd, h]

theorem writeCmd_of_reserved {w : Word} {e : DecodeError} (h : decode w = .error e) (s : State) :
    writeCmd w s = .refused (if s.status.busy then .busyWrite else .reservedCommand) := by
  simp only [writeCmd, h]
  split <;> rfl

/-- The reason a busy block refuses a host write with (R62; for `STATUS` and `CFG` log 8). -/
def busyReason : Target → Refusal
  | .src _ => .busyAccess
  | .dst _ => .busyAccess
  | _ => .busyWrite

theorem writeTarget_of_busy {s : State} (h : s.status.busy = true) (t : Target) (w : Word) :
    writeTarget t w s = .refused (busyReason t) := by
  cases t with
  | cmd =>
    show writeCmd w s = .refused .busyWrite
    cases hd : decode w with
    | ok i => rw [writeCmd_of_decode hd, issue_of_busy h]
    | error e => rw [writeCmd_of_reserved hd, if_pos h]
  | _ => exact if_pos h

/-- A host write of anything but `CMD` answers while the block is not busy. -/
theorem writeTarget_of_not_busy {s : State} (h : s.status.busy = false) {t : Target} (ht : t ≠ .cmd) (w : Word) :
    ∃ u, writeTarget t w s = .next u := by
  cases t with
  | cmd => exact absurd rfl ht
  | _ => exact ⟨_, if_neg (by simp [h])⟩

/-! ### Refused accesses -/

/-- Settles O49: the host may read nothing else of a busy block and write nothing, and an idle one waits. -/
theorem busyBlockOwnsMemoriesAndOperands : Obligations.BusyBlockOwnsMemoriesAndOperands := by
  refine ⟨fun s rest a w hbusy ha => ?_, fun s h hbusy => advance_of_idle (h.idle hbusy)⟩
  have hwrite {t : Target} (ht : targetAt s.cfg a = some t) (hp : s.pending = .write a 4 w :: rest) :
      step s = .refused (busyReason t) :=
    (step_write_of_target hp ha ht).trans (writeTarget_of_busy (s := s.withPending rest) hbusy t w)
  have hread {t : Target} (ht : targetAt s.cfg a = some t) (hclosed : ¬(t = .status ∨ t = .cfg))
      (hp : s.pending = .read a 4 :: rest) : step s = .refused .busyAccess :=
    (step_read_of_target hp ha ht).trans (readTarget_of_busy fun hmay => hclosed (hmay hbusy))
  refine ⟨?_, ?_, ?_⟩
  · rintro (⟨i, ht⟩ | ⟨i, ht⟩) <;> exact ⟨hread ht nofun, hwrite ht⟩
  · rintro (ht | ht | ht | ht) <;> exact ⟨hread ht nofun, hwrite ht⟩
  · rintro (ht | ht) <;> exact ⟨fun hp => ⟨_, step_read_of_target hp ha ht⟩, hwrite ht⟩

/-- A step with an access of the host pending that is no legal one is refused (R55). -/
theorem step_of_bad_access {s : State} {rest : List HostOp} {a size : Nat} {w : Word}
    (hp : s.pending = .read a size :: rest ∨ s.pending = .write a size w :: rest) (h : accessOk a size = false) :
    step s = .refused .badAccess := by
  obtain hp | hp := hp <;> exact (step_of_action hp).trans (busAccess_of_not_ok h)

theorem step_of_bad_address {s : State} {rest : List HostOp} {a size : Nat} {w : Word}
    (hp : s.pending = .read a size :: rest ∨ s.pending = .write a size w :: rest) (h : accessOk a size = true)
    (ht : targetAt s.cfg a = none) : step s = .refused .badAddress := by
  obtain hp | hp := hp <;> exact (step_of_action hp).trans (busAccess_of_no_target h ht)

theorem targetAt_outside {c : Config} {a : Nat} (hreg : ¬(c.regBase ≤ a ∧ a < c.regBase + 0x18))
    (hsrc : ¬(c.srcBase ≤ a ∧ a < c.srcBase + 4 * c.N)) (hdst : ¬(c.dstBase ≤ a ∧ a < c.dstBase + 4 * c.N)) :
    targetAt c a = none := by
  rw [targetAt, if_neg hreg, if_neg hsrc, if_neg hdst]

/-- Settles O50: width and alignment are looked at first, and no target is outside the windows. -/
theorem illegalAccessesAreRefused : Obligations.IllegalAccessesAreRefused := by
  refine fun s rest a size w hp => ⟨fun hbad => step_of_bad_access hp ?_, fun hsize ha hreg hsrc hdst =>
    step_of_bad_address hp ((accessOk_iff a size).2 ⟨hsize, ha⟩) (targetAt_outside hreg hsrc hdst)⟩
  rw [← Bool.not_eq_true, accessOk_iff]
  omega

section Unwritten

variable {s : State} {rest : List HostOp} {i : Nat}
variable (hmap : s.cfg.mapOk = true) (hbusy : s.status.busy = false) (hi : i < s.cfg.N)
include hmap hbusy hi

theorem step_read_src_of_unwritten (hx : Mem.get? s.src i = none)
    (hp : s.pending = .read (s.cfg.srcBase + 4 * i) 4 :: rest) : step s = .refused .unwrittenSample := by
  obtain ⟨⟨-, hsrc, -⟩, hdisj⟩ := (Config.mapOk_iff _).1 hmap
  rw [step_read_of_target hp (by omega) (targetAt_src hdisj hi)]
  exact readTarget_of_no_word (mayRead_of_not_busy hbusy _) (Option.map_eq_none_iff.2 hx)

theorem step_read_dst_of_unwritten (hx : Mem.get? s.dst i = none)
    (hp : s.pending = .read (s.cfg.dstBase + 4 * i) 4 :: rest) : step s = .refused .unwrittenSample := by
  obtain ⟨⟨-, -, hdst⟩, hdisj⟩ := (Config.mapOk_iff _).1 hmap
  rw [step_read_of_target hp (by omega) (targetAt_dst hdisj hi)]
  exact readTarget_of_no_word (mayRead_of_not_busy hbusy _) (Option.map_eq_none_iff.2 hx)

end Unwritten

/-- Settles O52: the entry has no word to give, after reset as before its first write. -/
theorem unwrittenSamplesAreNeverRead : Obligations.UnwrittenSamplesAreNeverRead :=
  ⟨fun _ _ _ hmap hbusy hi =>
      ⟨step_read_src_of_unwritten hmap hbusy hi, step_read_dst_of_unwritten hmap hbusy hi⟩,
    fun c _ i hmap hi =>
      ⟨step_read_src_of_unwritten (s := (State.resetOf c).withPending _) hmap rfl hi (Mem.get?_nil i) rfl,
        step_read_dst_of_unwritten (s := (State.resetOf c).withPending _) hmap rfl hi (Mem.get?_nil i) rfl⟩⟩

/-! ### The step that issues a command -/

theorem step_write_cmd {s : State} {rest : List HostOp} {w : Word} (hbase : s.cfg.regBase % 4 = 0)
    (hp : s.pending = .write s.cfg.regBase 4 w :: rest) : step s = writeCmd w (s.withPending rest) :=
  step_write_reg (o := 0x00) (t := .cmd) hp hbase rfl (by decide) rfl

/-- Settles O41: a write of a command's word to `CMD` issues it in the grain of the state. -/
theorem stepRunsTheDecodedCommand : Obligations.StepRunsTheDecodedCommand := by
  intro s rest w i hbase hp hd
  rw [step_write_cmd hbase hp, writeCmd_of_decode hd]
  exact ⟨fun hg => by rw [issue, State.withPending_grain, hg], fun hg => by rw [issue, State.withPending_grain, hg]⟩

/-- Settles O51: a word of 4 or more has a reserved bit, and the block is not busy. -/
theorem reservedCommandWordsAreRefused : Obligations.ReservedCommandWordsAreRefused := by
  intro s rest w hbase hbusy hw hp
  rw [step_write_cmd hbase hp, writeCmd_of_reserved (decode_of_reserved (by omega)), State.withPending_status, hbusy]
  rfl

/-! ### Nothing pending, and `RESET` -/

/-- Settles O42: the step is a turn of the sequencer, which waits where it is idle. -/
theorem idleBlockWaits : Obligations.IdleBlockWaits := by
  intro s hp
  rw [step_of_no_action hp]
  exact ⟨advance_of_idle, rfl⟩

/-- Settles O53: `RESET` reads nothing of the state but the build and the host's record. -/
theorem resetAbandonsARunningCommand : Obligations.ResetAbandonsARunningCommand := by
  intro s rest hp
  have hstep : step s = .next (s.withPending rest).doReset := step_of_action hp
  exact ⟨_, hstep, rfl, rfl, rfl, rfl, rfl, rfl, fun i => ⟨Mem.get?_nil i, Mem.get?_nil i⟩, rfl, rfl, rfl, rfl⟩

/-! ### `GETSRC` and `GETDST` -/

section Get

variable {s : State} {rest : List HostOp} {a : Nat} (hp : s.pending = .get a :: rest)
include hp

/-- A get is the read of its address in its place, and lists the sample of the word read. -/
theorem step_get_eq_next_iff {t : State} :
    step s = .next t ↔
      ∃ w, step (s.withPending (.read a 4 :: rest)) = .next { s with pending := rest, rdata := w :: s.rdata } ∧
        t = { s with pending := rest, rdata := w :: s.rdata, result := unpack w :: s.result } := by
  rw [step_of_action hp]
  exact busGet_eq_next_iff

theorem step_get_eq_refused_iff {r : Refusal} :
    step s = .refused r ↔ step (s.withPending (.read a 4 :: rest)) = .refused r := by
  rw [step_of_action hp]
  exact busGet_eq_refused_iff

/-- A get that reads the packed word of a sample lists the sample. -/
theorem step_get_of_read {x : Sample}
    (h : step (s.withPending (.read a 4 :: rest)) = .next { s with pending := rest, rdata := pack x :: s.rdata }) :
    step s = .next { s with pending := rest, rdata := pack x :: s.rdata, result := x :: s.result } :=
  (step_get_eq_next_iff hp).2 ⟨pack x, h, by rw [unpack_pack]⟩

end Get

/-- Settles O56: a get is a read whose word is unpacked, and an entry reads as its packed sample. -/
theorem getListsTheUnpackedSample : Obligations.GetListsTheUnpackedSample := by
  refine ⟨fun s rest a hp => ⟨fun t => step_get_eq_next_iff hp, fun r => step_get_eq_refused_iff hp⟩,
    fun s rest x i hmap hbusy hi => ⟨fun hx hp => step_get_of_read hp ?_, fun hx hp => step_get_of_read hp ?_⟩⟩
  · exact step_read_src (s := s.withPending _) hmap hbusy hi hx rfl
  · exact step_read_dst (s := s.withPending _) hmap hbusy hi hx rfl

/-! ### `WAIT` -/

/-- `s` is where a `WAIT` has ended: the block is not busy, and the last word the host has read says so. -/
structure WaitEnded (rest : List HostOp) (s : State) : Prop where
  pending : s.pending = rest
  not_busy : s.status.busy = false
  last_word : ∃ w, s.rdata.head? = some w ∧ w.getLsbD 0 = false

theorem wait_ends_of_not_busy {s : State} {rest : List HostOp} (hp : s.pending = .wait :: rest)
    (hbusy : s.status.busy = false) : ∃ t, runSteps 1 s = .next t ∧ WaitEnded rest t := by
  have hrun : runSteps 1 s = .next (s.withHost rest (statusWord s.status :: s.rdata)) := by
    rw [runSteps_succ, step_wait_of_not_busy hp hbusy]
    rfl
  exact ⟨_, hrun, rfl, hbusy, _, rfl, (getLsbD_zero_statusWord s.status).trans hbusy⟩

/-- A `WAIT` reads `STATUS` once after each phase that is left, and once before the first (log 15). -/
theorem wait_ends {n : Nat} {s t : State} {rest : List HostOp} (hp : s.pending = .wait :: rest)
    (hrun : runPhases n s = .next t) (hdone : t.status.busy = false) :
    ∃ k u, k ≤ n + 1 ∧ runSteps k s = .next u ∧ WaitEnded rest u := by
  induction n generalizing s t with
  | zero =>
    cases hrun
    obtain ⟨u, hu, hended⟩ := wait_ends_of_not_busy hp hdone
    exact ⟨1, u, le_rfl, hu, hended⟩
  | succ n ih =>
    cases hbusy : s.status.busy with
    | false =>
      obtain ⟨u, hu, hended⟩ := wait_ends_of_not_busy hp hbusy
      exact ⟨1, u, by omega, hu, hended⟩
    | true =>
      obtain ⟨v, hv, hrest⟩ := andThen_eq_next_iff.1 hrun
      obtain ⟨k, u, hk, hu, hended⟩ := ih rfl (runPhases_withHost hrest (.wait :: rest) _) hdone
      exact ⟨k + 1, u, by omega, by rw [runSteps_succ, step_wait_of_busy hp hbusy hv, andThen_next, hu], hended⟩

/-- Under the invariant at most `K + 1` phases leave the block not busy. -/
theorem runPhases_not_busy {s : State} (h : MachineInv s) :
    ∃ n t, n ≤ s.cfg.K + 1 ∧ runPhases n s = .next t ∧ t.status.busy = false := by
  cases hbusy : s.status.busy with
  | false => exact ⟨0, s, Nat.zero_le _, rfl, hbusy⟩
  | true =>
    obtain ⟨-, hrunning⟩ := runningPhaseAlwaysCompletes s h
    obtain ⟨n, t, hn, ht, ⟨-, hstatus⟩, -⟩ := hrunning hbusy
    exact ⟨n, t, hn, ht, by rw [hstatus]⟩

/-- Settles O54: the phases that are left end the `WAIT`. -/
theorem waitAlwaysEnds : Obligations.WaitAlwaysEnds := by
  intro s rest h hp
  obtain ⟨n, t, hn, ht, hdone⟩ := runPhases_not_busy h
  obtain ⟨k, u, hk, hu, hpending, hbusy, w, hw, hbit⟩ := wait_ends hp ht hdone
  exact ⟨k, u, w, by omega, hu, hpending, hbusy, hw, hbit⟩

/-! ### Refused exactly on a violation -/

/-- An outcome that is refused exactly when a reason applies, and then with one that does (R183, R184). -/
structure RefusedExactlyOn (v : Refusal → Bool) (o : Host.Outcome State Fault Refusal) : Prop where
  of_next : ∀ t, o = .next t → ∀ r, v r = false
  of_refused : ∀ r, o = .refused r → v r = true

theorem refusedExactlyOn_of_next {v : Refusal → Bool} {o : Host.Outcome State Fault Refusal}
    (ho : ∃ t, o = .next t) (h : ∀ r, v r = false) : RefusedExactlyOn v o := by
  obtain ⟨t, rfl⟩ := ho
  exact ⟨fun _ _ => h, nofun⟩

theorem refusedExactlyOn_of_refused {v : Refusal → Bool} {o : Host.Outcome State Fault Refusal} {r : Refusal}
    (ho : o = .refused r) (h : v r = true) : RefusedExactlyOn v o := by
  subst ho
  exact ⟨nofun, fun _ hr => by cases hr; exact h⟩

theorem RefusedExactlyOn.next_iff {v : Refusal → Bool} {o : Host.Outcome State Fault Refusal}
    (h : RefusedExactlyOn v o) : (∃ t, o = .next t) ↔ ∀ r, v r = false := by
  refine ⟨fun ⟨t, ht⟩ => h.of_next t ht, fun hnone => (outcome_next_or_refused o).resolve_right ?_⟩
  rintro ⟨r, hr⟩
  exact Bool.false_ne_true ((hnone r).symm.trans (h.of_refused r hr))

theorem refusedExactlyOn_issue (i : Instr) (s : State) : RefusedExactlyOn (commandViolation i s) (issue i s) := by
  unfold issue
  split
  next =>
    exact ⟨fun t ht => (accept_iff_no_violation i s).1 ((exec_next_iff_accept i s).1 ⟨t, ht⟩),
      fun _ => violation_of_exec_refused⟩
  next => exact ⟨fun t ht => no_violation_of_accept_next ht, fun _ => violation_of_accept_refused⟩

theorem readViolation_iff {t : Target} {s : State} {r : Refusal} :
    readViolation t s r = true ↔
      (r = .busyAccess ∧ ¬ MayRead t s) ∨ (r = .unwrittenSample ∧ targetWord s t = none) := by
  cases t <;> simp [readViolation, MayRead, targetWord]

theorem refusedExactlyOn_readTarget (t : Target) (s : State) :
    RefusedExactlyOn (readViolation t s) (readTarget t s) := by
  by_cases hmay : MayRead t s
  · cases hw : targetWord s t with
    | some w =>
      refine refusedExactlyOn_of_next ⟨_, readTarget_of_word hmay hw⟩ fun r => ?_
      rw [← Bool.not_eq_true, readViolation_iff]
      simp [hmay, hw]
    | none =>
      exact refusedExactlyOn_of_refused (readTarget_of_no_word hmay hw) (readViolation_iff.2 (.inr ⟨rfl, hw⟩))
  · exact refusedExactlyOn_of_refused (readTarget_of_busy hmay) (readViolation_iff.2 (.inl ⟨rfl, hmay⟩))

theorem writeViolation_of_ne_cmd {t : Target} (ht : t ≠ .cmd) (w : Word) (s : State) (r : Refusal) :
    writeViolation t w s r = (decide (r = busyReason t) && s.status.busy) := by
  cases t with
  | cmd => exact absurd rfl ht
  | _ => rfl

theorem writeViolation_cmd_of_decode {w : Word} {i : Instr} (h : decode w = .ok i) (s : State) :
    writeViolation .cmd w s = commandViolation i s := by
  funext r
  simp [writeViolation, h]

theorem refusedExactlyOn_writeCmd (w : Word) (s : State) :
    RefusedExactlyOn (writeViolation .cmd w s) (writeCmd w s) := by
  cases hd : decode w with
  | ok i =>
    rw [writeViolation_cmd_of_decode hd, writeCmd_of_decode hd]
    exact refusedExactlyOn_issue i s
  | error e =>
    refine refusedExactlyOn_of_refused (writeCmd_of_reserved hd s) ?_
    cases hbusy : s.status.busy <;> simp [writeViolation, hd, hbusy]

theorem refusedExactlyOn_writeTarget (t : Target) (w : Word) (s : State) :
    RefusedExactlyOn (writeViolation t w s) (writeTarget t w s) := by
  by_cases ht : t = .cmd
  · subst ht
    exact refusedExactlyOn_writeCmd w s
  · cases hbusy : s.status.busy with
    | false =>
      exact refusedExactlyOn_of_next (writeTarget_of_not_busy hbusy ht w) fun r => by
        rw [writeViolation_of_ne_cmd ht, hbusy, Bool.and_false]
    | true =>
      refine refusedExactlyOn_of_refused (writeTarget_of_busy hbusy t w) ?_
      rw [writeViolation_of_ne_cmd ht, hbusy, decide_eq_true rfl, Bool.and_true]

/-- An access is refused exactly on a violation when it is at every target it can reach. -/
theorem refusedExactlyOn_busAccess (a size : Nat) (s : State) {f : Target → Host.Outcome State Fault Refusal}
    {v : Target → Refusal → Bool} (h : ∀ t, RefusedExactlyOn (v t) (f t)) :
    RefusedExactlyOn (fun r => accessViolation a size s (fun t => v t r) r) (busAccess a size s f) := by
  cases ha : accessOk a size with
  | false => exact refusedExactlyOn_of_refused (busAccess_of_not_ok ha) (by simp [accessViolation, ha])
  | true =>
    cases ht : targetAt s.cfg a with
    | none => exact refusedExactlyOn_of_refused (busAccess_of_no_target ha ht) (by simp [accessViolation, ha, ht])
    | some t => simpa [accessViolation, ha, ht, busAccess_of_target ha ht] using h t

theorem refusedExactlyOn_busRead (a size : Nat) (s : State) :
    RefusedExactlyOn (hostViolation (.read a size) s) (busRead a size s) := by
  rw [busRead_eq]
  exact refusedExactlyOn_busAccess a size s fun t => refusedExactlyOn_readTarget t s

theorem refusedExactlyOn_busGet {v : Refusal → Bool} {a : Nat} {s : State}
    (h : RefusedExactlyOn v (busRead a 4 s)) : RefusedExactlyOn v (busGet a s) := by
  refine ⟨fun t ht => ?_, fun r hr => h.of_refused r (busGet_eq_refused_iff.1 hr)⟩
  obtain ⟨w, hw, -⟩ := busGet_eq_next_iff.1 ht
  exact h.of_next _ hw

/-- Under the invariant no turn of `WAIT` is refused. -/
theorem waitTurn_of_inv {s : State} (h : MachineInv s) : ∃ t, waitTurn s = .next t := by
  rw [waitTurn_eq]
  split
  next =>
    obtain ⟨⟨t, ht⟩, -⟩ := runningPhaseAlwaysCompletes _ (h.of_sameBlock (sameBlock_give s (statusWord s.status)))
    rw [ht]
    exact ⟨_, rfl⟩
  next => exact ⟨_, rfl⟩

theorem refusedExactlyOn_hostAction {s : State} (h : MachineInv s) (op : HostOp) :
    RefusedExactlyOn (hostViolation op s) (hostAction op s) := by
  cases op with
  | write a size w =>
    rw [hostAction, busWrite_eq]
    exact refusedExactlyOn_busAccess a size s fun t => refusedExactlyOn_writeTarget t w s
  | read a size => exact refusedExactlyOn_busRead a size s
  | get a => exact refusedExactlyOn_busGet (refusedExactlyOn_busRead a 4 s)
  | wait => exact refusedExactlyOn_of_next (waitTurn_of_inv h) fun _ => rfl
  | reset => exact refusedExactlyOn_of_next ⟨_, rfl⟩ fun _ => rfl
  | tick =>
    obtain ⟨hadvance, -⟩ := runningPhaseAlwaysCompletes s h
    exact refusedExactlyOn_of_next hadvance fun _ => rfl

/-- No reason looks at the host's record. -/
theorem hostViolation_withPending (op : HostOp) (s : State) (ops : List HostOp) :
    hostViolation op (s.withPending ops) = hostViolation op s := rfl

/-- Settles O55: at its target every access is refused exactly on a violation, and the other actions never are. -/
theorem hostActionRefusedExactlyOnViolation : Obligations.HostActionRefusedExactlyOnViolation := by
  intro s op rest h hp
  have haction := refusedExactlyOn_hostAction (h.of_sameBlock (sameBlock_withPending s rest)) op
  rw [hostViolation_withPending, ← step_of_action hp] at haction
  exact ⟨haction.next_iff, haction.of_refused⟩

end Sys2Proof.Machine
